-- ==== Sys2Proof/Word.lean ====
section
/-! DEFINITION. The machine's one unit of storage, the byte. -/

namespace Sys2Proof

/-- A byte: 8 bits, value 0 to 255 (00_scope.md R6). It is the addressable unit of IN, OUT and the
ROMs, and a character is stored as one byte (20_memory.md R31). -/
abbrev Byte := BitVec 8

end Sys2Proof
end

