-- ==== Sys2Proof/Machine/Flags.lean ====
section
/-! DEFINITION. What a command computes beside its output bytes: the outcome codes of `ERR`
(60_exceptions.md R131) and the mod-36 checksum machine (41_checksum.md). -/

namespace Sys2Proof.Machine

/-- The seven decode errors (60_exceptions.md R131). Only `InvalidByte` has a payload. -/
inductive DecodeError where
  | malformedHeader
  | malformedTrailer
  | corrupted
  | invalidByte (pos : Nat)
  | expectedVowel
  | expectedConsonant
  | checksumMismatch
  deriving DecidableEq, Repr

/-- The outcome code 0, `OK` (60_exceptions.md R131). -/
def okCode : BitVec 3 := 0

/-- The code an error writes into `ERR` (60_exceptions.md R131). -/
def DecodeError.code : DecodeError → BitVec 3
  | .malformedHeader => 1
  | .malformedTrailer => 2
  | .corrupted => 3
  | .invalidByte _ => 4
  | .expectedVowel => 5
  | .expectedConsonant => 6
  | .checksumMismatch => 7

/-- What an error writes into `ERRPOS`: the payload of `InvalidByte(pos)`, else 0
(60_exceptions.md R134). -/
def DecodeError.pos : DecodeError → Nat
  | .malformedHeader => 0
  | .malformedTrailer => 0
  | .corrupted => 0
  | .invalidByte pos => pos
  | .expectedVowel => 0
  | .expectedConsonant => 0
  | .checksumMismatch => 0

/-- The value `CS` holds before the first group (41_checksum.md R76). -/
def csInit : Fin 36 := 1

/-- The transition of the checksum machine, computed exactly and then reduced
(41_checksum.md R77, R78). -/
def csnext (cs : Fin 36) (b0 b1 : Byte) : Fin 36 :=
  ⟨(cs.val * 5 + b0.toNat * 7 + b1.toNat) % 36, Nat.mod_lt _ (by decide)⟩

/-- `cslo(cs) = cs mod 6` (41_checksum.md R80). -/
def cslo (cs : Fin 36) : Fin 6 := ⟨cs.val % 6, Nat.mod_lt _ (by decide)⟩

/-- `cshi(cs) = cs / 6` (41_checksum.md R80). -/
def cshi (cs : Fin 36) : Fin 6 := ⟨cs.val / 6, by omega⟩

end Sys2Proof.Machine
end

