-- ==== Sys2Proof/Machine/Operands.lean ====
section
/-! DEFINITION. The operands of the commands: the alphabet ROMs and their lookups
(40_alphabet_roms.md), the fields of a byte and of a string unit (30_encoding.md R52 to R56), and
the decoder's reading of one unit (43_decoder.md R101). -/

namespace Sys2Proof.Machine

/-! ### ROM contents -/

/-- The vowel ROM, `aeiouy` (40_alphabet_roms.md R65, codes R68). -/
def vowelTable : Vector Byte 6 := #v[0x61, 0x65, 0x69, 0x6F, 0x75, 0x79]

/-- The consonant ROM, `bcdfghklmnprstvzx`; entry 16 is the sentinel (40_alphabet_roms.md R66, codes
R68). Entries 1, 10 and 15 (`c`, `p`, `z`) rest on no source sentence: the spec supplies them from
general knowledge (log entry 12). -/
def consTable : Vector Byte 17 :=
  #v[0x62, 0x63, 0x64, 0x66, 0x67, 0x68, 0x6B, 0x6C, 0x6D, 0x6E, 0x70, 0x72, 0x73, 0x74, 0x76,
    0x7A, 0x78]

/-- `VOWEL[i]` (00_scope.md R7). -/
def vowelRom (i : Fin 6) : Byte := vowelTable[i]

/-- `CONS[i]` (00_scope.md R7). -/
def consRom (i : Fin 17) : Byte := consTable[i]

/-- The data consonant standing for a 4-bit value: `CONS[i]` for `i` in 0 to 15. -/
def dataConsRom (i : Fin 16) : Byte := consRom i.castSucc

/-- The sentinel consonant, `CONS[16]` (40_alphabet_roms.md R67). -/
def sentinelChar : Byte := consRom 16

/-- The header and the trailer, both `x` (40_alphabet_roms.md R67). -/
def headerChar : Byte := 0x78

/-- The trailer, `x` (40_alphabet_roms.md R67). -/
def trailerChar : Byte := 0x78

/-- The separator, `-` (40_alphabet_roms.md R67). -/
def sepChar : Byte := 0x2D

/-- The canonical empty form `xexax` (30_encoding.md R55): `78 65 78 61 78`. -/
def emptyLiteral : List Byte := [0x78, 0x65, 0x78, 0x61, 0x78]

/-! ### Lookups -/

/-- `vidx(ch)`, none outside its domain (40_alphabet_roms.md R71). -/
def vidx? (ch : Byte) : Option (Fin 6) := (List.finRange 6).find? (fun i => vowelRom i = ch)

/-- `cidx(ch)`, none outside its domain; the sentinel has none (40_alphabet_roms.md R71). -/
def cidx? (ch : Byte) : Option (Fin 16) := (List.finRange 16).find? (fun i => dataConsRom i = ch)

/-- The five classes of 40_alphabet_roms.md R70. -/
inductive CharClass where
  | vowel
  | dataCons
  | sentinel
  | sep
  | other
  deriving DecidableEq, Repr

/-- `class(ch)` (40_alphabet_roms.md R70). -/
def charClass (ch : Byte) : CharClass :=
  if (vidx? ch).isSome then .vowel
  else if (cidx? ch).isSome then .dataCons
  else if ch = sentinelChar then .sentinel
  else if ch = sepChar then .sep
  else .other

/-- `inalpha(ch)`: `ch` is one of the 24 characters (40_alphabet_roms.md R72). -/
def inAlpha (ch : Byte) : Bool := charClass ch != .other

/-! ### Fields of a byte -/

/-- `v[hi:lo]` as a natural number (00_scope.md R6). -/
def bits (v : Byte) (hi lo : Nat) : Nat := (v.toNat >>> lo) % 2 ^ (hi - lo + 1)

/-- The first vowel index of a triple: `a = (v[7:6] + cs) mod 6` (42_encoder.md R88). -/
def tripleA (v : Byte) (cs : Fin 36) : Fin 6 := ⟨(bits v 7 6 + cs.val) % 6, Nat.mod_lt _ (by decide)⟩

/-- The consonant index of a triple: `b = v[5:2]` (42_encoder.md R88). -/
def tripleB (v : Byte) : Fin 16 := ⟨bits v 5 2, Nat.mod_lt _ (by decide)⟩

/-- The second vowel index of a triple: `c = (v[1:0] + cs / 6) mod 6` (42_encoder.md R88). -/
def tripleC (v : Byte) (cs : Fin 36) : Fin 6 :=
  ⟨(bits v 1 0 + cs.val / 6) % 6, Nat.mod_lt _ (by decide)⟩

/-- The first consonant index of a pair, the high nibble: `d = r[7:4]` (42_encoder.md R89). -/
def pairD (r : Byte) : Fin 16 := ⟨bits r 7 4, Nat.mod_lt _ (by decide)⟩

/-- The second consonant index of a pair, the low nibble: `e = r[3:0]` (42_encoder.md R89). -/
def pairE (r : Byte) : Fin 16 := ⟨bits r 3 0, Nat.mod_lt _ (by decide)⟩

/-- A byte from a triple's fields: `(hi << 6) | (mid << 2) | lo` (30_encoding.md R56). -/
def joinTriple (hi : Nat) (mid : Fin 16) (lo : Nat) : Byte :=
  BitVec.ofNat 8 ((hi <<< 6) ||| (mid.val <<< 2) ||| lo)

/-- A byte from a pair's fields: `(d << 4) | e` (30_encoding.md R56, 43_decoder.md R110). -/
def joinPair (d e : Fin 16) : Byte := BitVec.ofNat 8 ((d.val <<< 4) ||| e.val)

/-! ### The characters of a unit -/

/-- The three characters of the triple of `v` under `cs` (30_encoding.md R52, 42_encoder.md R88). -/
def tripleChars (v : Byte) (cs : Fin 36) : List Byte :=
  [vowelRom (tripleA v cs), dataConsRom (tripleB v), vowelRom (tripleC v cs)]

/-- The pair of `r` with the separator between its consonants (30_encoding.md R53,
42_encoder.md R89). -/
def pairChars (r : Byte) : List Byte := [dataConsRom (pairD r), sepChar, dataConsRom (pairE r)]

/-- The parity tuple for `cs` (30_encoding.md R54, 42_encoder.md R90). -/
def parityChars (cs : Fin 36) : List Byte := [vowelRom (cslo cs), sentinelChar, vowelRom (cshi cs)]

/-! ### The decoder's reading of a unit -/

/-- `need_vowel(ch)` with `vidx(ch)` as its answer (43_decoder.md R101, R107). -/
def needVowel (ch : Byte) : Except DecodeError (Fin 6) :=
  match vidx? ch with
  | some i => .ok i
  | none => .error .expectedVowel

/-- `need_datacons(ch)` with `cidx(ch)` as its answer (43_decoder.md R101, R107, R112). -/
def needDataCons (ch : Byte) : Except DecodeError (Fin 16) :=
  if charClass ch = .sentinel then .error .corrupted
  else
    match cidx? ch with
    | some i => .ok i
    | none => .error .expectedConsonant

/-- The separator check of window offset 4 (43_decoder.md R111). -/
def needSep (ch : Byte) : Except DecodeError Unit :=
  if ch = sepChar then .ok () else .error .corrupted

/-- The first vowel of a triple with the offset removed: `(vidx(p) + 6 - (cs mod 6)) mod 6`
(43_decoder.md R108). -/
def removeLo (p : Fin 6) (cs : Fin 36) : Nat := (p.val + 6 - (cs.val % 6)) % 6

/-- The second vowel of a triple with the offset removed: `(vidx(r) + 6 - (cs / 6)) mod 6`
(43_decoder.md R108). -/
def removeHi (r : Fin 6) (cs : Fin 36) : Nat := (r.val + 6 - (cs.val / 6)) % 6

/-- `untriple` on the indices of the three characters, with the numeric check (43_decoder.md R101,
R108, R109). -/
def untriple (p : Fin 6) (q : Fin 16) (r : Fin 6) (cs : Fin 36) : Except DecodeError Byte :=
  if 4 ≤ removeLo p cs ∨ 4 ≤ removeHi r cs then .error .corrupted
  else .ok (joinTriple (removeLo p cs) q (removeHi r cs))

/-- One window, its checks in the order of 43_decoder.md R113; the answer is its two data bytes
(43_decoder.md R101, phase 4). -/
def readWindow (w0 w1 w2 w3 w4 w5 : Byte) (cs : Fin 36) : Except DecodeError (Byte × Byte) := do
  let a ← needVowel w0
  let b ← needDataCons w1
  let c ← needVowel w2
  let b0 ← untriple a b c cs
  let d ← needDataCons w3
  needSep w4
  let e ← needDataCons w5
  return (b0, joinPair d e)

/-- The comparison of a parity tuple with the recomputed checksum (43_decoder.md R114). -/
def matchParity (a c : Fin 6) (cs : Fin 36) : Except DecodeError Unit :=
  if a = cslo cs ∧ c = cshi cs then .ok () else .error .checksumMismatch

/-- The final group, its checks in the order of 43_decoder.md R117. The middle character tells the
parity tuple, which gives no byte (R114), from the final data triple, which gives the last byte
(R115). -/
def readFinal (t0 t1 t2 : Byte) (cs : Fin 36) : Except DecodeError (Option Byte) := do
  let a ← needVowel t0
  if charClass t1 = .sentinel then
    let c ← needVowel t2
    matchParity a c cs
    return none
  else
    let b ← needDataCons t1
    let c ← needVowel t2
    let v ← untriple a b c cs
    return some v

/-- Phase 2 of DECODE, on the two tests of 43_decoder.md R103: `hdr`, "the first character exists
and is `x`", and `trl`, "the last character exists and is `x`"; `n` is the length. -/
def shapeError (hdr trl : Bool) (n : Nat) : Option DecodeError :=
  if hdr && trl && decide (2 ≤ n) then none
  else if hdr then some .malformedTrailer
  else if trl then some .malformedHeader
  else some .corrupted

end Sys2Proof.Machine
end

