-- ==== Sys2Proof/Config.lean ====
section
/-! DEFINITION. What an implementation fixes (the capacities of 00_scope.md R5) and the one value
the spec leaves free (the contents of IN after reset). -/

namespace Sys2Proof

/-- The implementation parameters of 00_scope.md R5. `LENW` is computed from them (`Params.lenW`).
They are plain data and stand in `State`, so a statement over all states is a statement over all
configurations (log entry 1). -/
structure Params where
  /-- `IN_MAX`: capacity of the input buffer IN, in bytes. -/
  inMax : Nat
  /-- `OUT_MAX`: capacity of the output buffer OUT, in bytes. -/
  outMax : Nat
  deriving DecidableEq, Repr

/-- `LENW`: the smallest `w` with `2^w > OUT_MAX` (00_scope.md R5). -/
def Params.lenW (p : Params) : Nat := Nat.size p.outMax

/-- The parameters of the programs of 95_test_vectors.md section 3: `IN_MAX = 64`,
`OUT_MAX = 197`, so `LENW = 8`. DESIGN CHOICE (log entry 1): the spec leaves the capacities open
and `State.reset` has to name some. -/
def Params.reference : Params := { inMax := 64, outMax := 197 }

/-- FREE VALUE (log entry 3). The byte that index `i` of IN holds after the reset numbered `epoch`
when the host has not written it since: "Every byte of IN and of OUT is unspecified"
(10_state.md R24; 93_implementation_defined.md U1, `any value`). It has no body, so nothing can be
proved of its value. -/
opaque Config.unspecifiedIn (epoch i : Nat) : BitVec 8

end Sys2Proof
end

