-- ==== Sys2Proof/Machine/State.lean ====
section
/-! DEFINITION. The state of one BOBA core with its host (10_state.md R10), and the state after
reset (10_state.md R24). -/

namespace Sys2Proof.Machine

/-- One address space: (index, byte) pairs in canonical form (`Memory.wf` in Machine/Ops.lean). IN and
OUT are two of these; they do not overlap and have no common addressing (20_memory.md R30). -/
abbrev Memory := List Host.Cell

/-- The sequencer phase (10_state.md R10, R18), as far as it can be told apart between two steps:
whether a command is running. The position inside a command is the position in the pseudocode of the
command's meaning (log entry 8). -/
inductive Phase where
  | idle
  | running
  deriving DecidableEq, Repr

/-- The host's loads and reads (10_state.md R25, 70_reset_and_hazards.md R166 "Load", "Collect"). "A
host write to `OUT`, `OUT_LEN`, `ERR`, `ERRPOS` or `CS` does not exist (a model has no such move)." -/
inductive Access where
  /-- `IN[i] <- b`. -/
  | writeIn (i : Nat) (b : Byte)
  /-- `IN_LEN <- n`. -/
  | writeInLen (n : Nat)
  /-- Read `IN[i]`. -/
  | readIn (i : Nat)
  /-- Read `IN_LEN`. -/
  | readInLen
  /-- Read `OUT[j]`. -/
  | readOut (j : Nat)
  /-- Read `OUT_LEN`. -/
  | readOutLen
  /-- Read `ERR`. -/
  | readErr
  /-- Read `ERRPOS`. -/
  | readErrPos
  deriving DecidableEq, Repr

/-- Every move the host has (70_reset_and_hazards.md R166). -/
inductive HostAction where
  /-- A load or a read. -/
  | access (a : Access)
  /-- `CMD <- op`: starts a command (10_state.md R14). -/
  | writeCmd (op : BitVec 1)
  /-- Assert the reset input (70_reset_and_hazards.md R155). -/
  | reset
  deriving DecidableEq, Repr

/-- What a host read gives back. -/
inductive HostReply where
  | inByte (i : Nat) (b : Byte)
  | inLen (n : Nat)
  | outByte (j : Nat) (b : Byte)
  | outLen (n : Nat)
  | err (code : BitVec 3)
  | errPos (pos : Nat)
  deriving DecidableEq, Repr

/-- Why the machine stops with a fault: the host named a byte the spec says does not exist. -/
inductive Fault where
  /-- A host read or write of IN at an index not below `IN_MAX`; raised by `hostAccess`. The index
  range of IN is 0 to `IN_MAX - 1` (20_memory.md R30). Safe: nothing is claimed of such a run. -/
  | noSuchInByte
  /-- A host read of OUT at an index not below `OUT_MAX`; raised by `hostAccess`. The index range of
  OUT is 0 to `OUT_MAX - 1` (20_memory.md R30). Safe: nothing is claimed of such a run. -/
  | noSuchOutByte
  deriving DecidableEq, Repr

/-- Why the model gives a step no meaning: the list of 60_exceptions.md R138. -/
inductive Refusal where
  /-- An instruction without a meaning; the meanings are complete, so no arm of `exec` raises it. -/
  | notModelled (mnemonic : String)
  /-- The configuration breaks 00_scope.md R5; raised by `runCommand` and `nextMove`. Safe: "A
  configuration that breaks the constraint is not a BOBA core; a model refuses it." -/
  | badConfiguration
  /-- `IN_LEN > IN_MAX`, as a host write (`hostAccess`) or in the state a command starts from
  (`runCommand`): "not a state of this hardware" (10_state.md R12). Safe. -/
  | inLenAboveCapacity
  /-- A host read of OUT at or above `OUT_LEN`; raised by `hostAccess` (10_state.md R13,
  93_implementation_defined.md U2). Safe: such a byte has no value. -/
  | outReadAboveLength
  /-- A host access other than reset while a command runs; raised by `nextMove`
  (70_reset_and_hazards.md R160, 93_implementation_defined.md U3). Safe. -/
  | hostWhileRunning
  deriving DecidableEq, Repr

/-- The complete state (10_state.md R10), the configuration (00_scope.md R5) and the model's own three
fields for what stands outside the block. `LENW`-bit registers hold naturals; that they fit `LENW`
bits is a statement (log entry 2). -/
structure State where
  /-- The configuration; no step changes it. -/
  params : Params
  /-- `IN`, the input buffer (10_state.md R12): the bytes the host has written since reset,
  kept whatever `IN_LEN` is (log entry 17). -/
  inBuf : Memory
  /-- `IN_LEN`, the number of valid bytes in IN (10_state.md R12). -/
  inLen : Nat
  /-- `OUT`, the output buffer (10_state.md R13): the bytes that have a value. -/
  outBuf : Memory
  /-- `OUT_LEN`, the number of valid bytes in OUT (10_state.md R13). -/
  outLen : Nat
  /-- `ERR`, the outcome of the last command (10_state.md R15, 60_exceptions.md R131). -/
  err : BitVec 3
  /-- `ERRPOS`, the position payload of `InvalidByte`, 0 otherwise (10_state.md R16). -/
  errPos : Nat
  /-- `CS`, the checksum accumulator, typed below 36 (10_state.md R11, 41_checksum.md R83). -/
  cs : Fin 36
  /-- `ip`, the hidden input cursor (10_state.md R18). -/
  ip : Nat
  /-- `op`, the hidden output cursor (10_state.md R18). -/
  op : Nat
  /-- The hidden sequencer phase (10_state.md R18). -/
  phase : Phase
  /-- The model's own: how many resets there have been; it draws the free bytes of IN (log entry 3). -/
  epoch : Nat
  /-- The model's own: the host's pending actions, oldest first (log entry 5). -/
  host : List HostAction
  /-- The model's own: what the host has read, oldest first (log entry 7). -/
  seen : List HostReply
  deriving DecidableEq, Repr

/-- The values reset leaves (10_state.md R24, 70_reset_and_hazards.md R156): `IN_LEN = 0`,
`OUT_LEN = 0`, `ERR = 0`, `ERRPOS = 0`, `CS = 1`, cursors 0, phase idle, no command running, IN and
OUT unspecified (nothing listed). What stands outside the block is handed in. -/
def State.afterReset (params : Params) (epoch : Nat) (host : List HostAction)
    (seen : List HostReply) : State where
  params := params
  inBuf := []
  inLen := 0
  outBuf := []
  outLen := 0
  err := 0
  errPos := 0
  cs := 1
  ip := 0
  op := 0
  phase := .idle
  epoch := epoch
  host := host
  seen := seen

/-- The machine right after reset, with the reference configuration and a host that asks for nothing.
That a run starts here is a DESIGN CHOICE (log entry 18): the spec gives no state at power-on before
the first reset (70_reset_and_hazards.md R155, R159). -/
def State.reset : State := State.afterReset Params.reference 0 [] []

end Sys2Proof.Machine
end

