-- ==== Sys2Proof/Syntax.lean ====
section
/-! DEFINITION. The command set: the rows of spec/opcode_table.json. -/

namespace Sys2Proof

/-- The block's "instruction set" is its two commands (00_scope.md R1, 30_encoding.md R46). Neither
has an encoded operand: the operands are the implicit `IN_LEN` and `IN[0 .. IN_LEN-1]`
(30_encoding.md R45). -/
inductive Instr where
  /-- `ENCODE`, `op = 0`: byte sequence in, encoded string out (42_encoder.md R85). -/
  | encode
  /-- `DECODE`, `op = 1`: encoded string in, byte sequence or one error out (43_decoder.md R100). -/
  | decode
  deriving DecidableEq, Repr

end Sys2Proof
end

