-- ==== Sys2Proof/WellFormed.lean ====
section
/-! DEFINITION. What makes a command and a configuration well formed. -/

namespace Sys2Proof

/-- Every command is well formed: a command has no operand field, and both values of its one bit are
defined, "so no write to `CMD` is illegal, reserved, a hint or custom" (30_encoding.md R45, R47). -/
def Instr.wf : Instr → Bool
  | .encode => true
  | .decode => true

/-- The constraint of 00_scope.md R5 on the capacities: `IN_MAX >= 5` and
`OUT_MAX >= 6 * (IN_MAX / 2) + 5`. "A configuration that breaks the constraint is not a BOBA core;
a model refuses it." -/
abbrev Params.wf (p : Params) : Prop :=
  5 ≤ p.inMax ∧ 6 * (p.inMax / 2) + 5 ≤ p.outMax

end Sys2Proof
end

