-- ==== Sys2Proof/Machine/Ops.lean ====
section
/-! DEFINITION. The named operations over the buffers and registers: memory, the pseudocode
primitives of 00_scope.md R7, the start and the two ends of a command (success, and `raise`, the
block's one kind of exception, 60_exceptions.md R134). -/

namespace Sys2Proof.Machine

/-! ### Memory -/

/-- What an unlisted index reads as: no value (10_state.md R13, R24: unspecified; log entries 3
and 4). -/
def Memory.unlisted : Option Byte := none

/-- The byte listed at an index. -/
def Memory.read? : Memory → Nat → Option Byte
  | [], _ => Memory.unlisted
  | (a, b) :: m, i => if a = i then some b else Memory.read? m i

/-- Write a byte, keeping the indices strictly rising. No byte equals what an unlisted index reads
as, so no write removes an entry. -/
def Memory.write : Memory → Nat → Byte → Memory
  | [], i, v => [(i, v)]
  | (a, b) :: m, i, v =>
    if i < a then (i, v) :: (a, b) :: m
    else if i = a then (i, v) :: m
    else (a, b) :: Memory.write m i v

/-- The canonical form: indices strictly rising, and no entry equal to what an unlisted index reads
as. -/
abbrev Memory.wf (m : Memory) : Prop :=
  (m.map Prod.fst).Pairwise (· < ·) ∧ ∀ c ∈ m, some c.2 ≠ Memory.unlisted

/-- Every listed index is below a bound. -/
abbrev Memory.below (m : Memory) (bound : Nat) : Prop := ∀ c ∈ m, c.1 < bound

/-- `MemRead(IN+i, 1)` (00_scope.md R7). A byte that nothing has written since reset is unspecified:
a free value (log entry 3). A byte the host has written reads as last written, also at or above `IN_LEN`,
where 93_implementation_defined.md U1 allows any value: DESIGN CHOICE (log entry 17). -/
def State.memRead (s : State) (i : Nat) : Byte :=
  match s.inBuf.read? i with
  | some b => b
  | none => Config.unspecifiedIn s.epoch i

/-- The `k` bytes of IN from index `i` on, `IN[i .. i+k-1]`. -/
def State.chars (s : State) : Nat → Nat → List Byte
  | _, 0 => []
  | i, k + 1 => s.memRead i :: s.chars (i + 1) k

/-- `MemWrite(OUT+j, 1, v)` (00_scope.md R7). -/
def State.memWrite (s : State) (j : Nat) (v : Byte) : State :=
  { s with outBuf := s.outBuf.write j v }

/-! ### Pseudocode primitives -/

/-- `emit(ch)`: `MemWrite(OUT+op, 1, ch); op <- op + 1` (00_scope.md R7). -/
def State.emit (s : State) (ch : Byte) : State :=
  { s.memWrite s.op ch with op := s.op + 1 }

/-- Several characters, the first one first. -/
def State.emitAll (s : State) : List Byte → State
  | [] => s
  | ch :: chs => (s.emit ch).emitAll chs

/-- `ip <- ip + k`. -/
def State.advance (s : State) (k : Nat) : State := { s with ip := s.ip + k }

/-- `CS <- 1` (41_checksum.md R76). -/
def State.initCs (s : State) : State := { s with cs := csInit }

/-- `CS <- csnext(CS, b0, b1)` (41_checksum.md R77). -/
def State.stepCs (s : State) (b0 b1 : Byte) : State := { s with cs := csnext s.cs b0 b1 }

/-! ### Start and end of a command -/

/-- The start of every command: cursors 0 and the first phase (10_state.md R18). What OUT held is
unspecified from here on: after the command only `OUT[0 .. OUT_LEN-1]` has a value, whatever stood
there before (10_state.md R13, R23). -/
def State.start (s : State) : State :=
  { s with ip := 0, op := 0, outBuf := [], phase := .running }

/-- The successful end of a command: `OUT_LEN <- op ; ERR <- 0 ; ERRPOS <- 0`, then idle
(42_encoder.md R94, 43_decoder.md R118, 70_reset_and_hazards.md R167). -/
def State.succeed (s : State) : State :=
  { s with outLen := s.op, err := okCode, errPos := 0, phase := .idle }

/-- `raise E(info)` (60_exceptions.md R134): `OUT_LEN <- 0`, `ERR <- code(E)`, `ERRPOS <-` the payload
of `InvalidByte` or 0, then idle (R135). OUT is unspecified, so nothing of it keeps a value; `CS`
and the cursors are left wherever they were. It is not a trap: control goes nowhere, and there is
nothing to return from (R130, R135). -/
def State.raiseError (s : State) (e : DecodeError) : State :=
  { s with outLen := 0, err := e.code, errPos := e.pos, outBuf := [], phase := .idle }

/-- Run the body of a command from a state of this hardware. What a model refuses is refused first:
a configuration that breaks 00_scope.md R5, and `IN_LEN > IN_MAX` (60_exceptions.md R138). -/
def runCommand (body : State → State) (s : State) : Host.Outcome State Fault Refusal :=
  if s.params.wf then
    if s.inLen ≤ s.params.inMax then .next (body s.start) else .refused .inLenAboveCapacity
  else .refused .badConfiguration

end Sys2Proof.Machine
end

