-- ==== Sys2Proof/Machine/Decoder.lean ====
section
/-! DEFINITION. The DECODE command (43_decoder.md R100 to R124). -/

namespace Sys2Proof.Machine

/-- Phase 1 of 43_decoder.md R101: "`n = 5` and `s[0..4] = "xexax"`" (R102). -/
def State.isEmptyLiteral (s : State) : Bool :=
  decide (s.inLen = 5 ∧ s.chars 0 5 = emptyLiteral)

/-- `hdr`: the first character exists and is `x` (43_decoder.md R103). -/
def State.hasHeader (s : State) : Bool := decide (1 ≤ s.inLen ∧ s.memRead 0 = headerChar)

/-- `trl`: the last character exists and is `x` (43_decoder.md R103). -/
def State.hasTrailer (s : State) : Bool :=
  decide (1 ≤ s.inLen ∧ s.memRead (s.inLen - 1) = trailerChar)

/-- Phase 3 of 43_decoder.md R101: the first of the `k` indices from `i` on whose character is outside
the alphabet (R104). -/
def State.scanAlphabet (s : State) : Nat → Nat → Option Nat
  | _, 0 => none
  | i, k + 1 => if inAlpha (s.memRead i) then s.scanAlphabet (i + 1) k else some i

/-- `readWindow` on the six characters from index `p` on (30_encoding.md R50). -/
def State.windowAt (s : State) (p : Nat) : Except DecodeError (Byte × Byte) :=
  readWindow (s.memRead p) (s.memRead (p + 1)) (s.memRead (p + 2)) (s.memRead (p + 3))
    (s.memRead (p + 4)) (s.memRead (p + 5)) s.cs

/-- What one decoded window does: write its two bytes, step the checksum, move on by six characters
(43_decoder.md R101 phase 4). -/
def State.acceptWindow (s : State) (b0 b1 : Byte) : State :=
  (((s.emit b0).emit b1).stepCs b0 b1).advance 6

/-- Phase 4 of 43_decoder.md R101: windows "for as long as at least 6 characters remain" (R106). `ip`
counts the interior characters consumed, the `k` of the pseudocode; the interior has `IN_LEN - 2`
characters and starts at index 1. The first argument bounds the number of rounds. An error comes with
the state it was met in. -/
def State.decodeWindows : Nat → State → Except (DecodeError × State) State
  | 0, s => .ok s
  | k + 1, s =>
    if 6 ≤ s.inLen - 2 - s.ip then
      match s.windowAt (1 + s.ip) with
      | .ok (b0, b1) => State.decodeWindows k (s.acceptWindow b0 b1)
      | .error e => .error (e, s)
    else .ok s

/-- Phase 5 of 43_decoder.md R101: the remainder must be exactly 3 characters (R116), a parity tuple
(R114) or a final data triple (R115). -/
def State.decodeFinal (s : State) : State :=
  if s.inLen - 2 - s.ip = 3 then
    match readFinal (s.memRead (1 + s.ip)) (s.memRead (2 + s.ip)) (s.memRead (3 + s.ip)) s.cs with
    | .ok none => (s.advance 3).succeed
    | .ok (some v) => ((s.emit v).advance 3).succeed
    | .error e => s.raiseError e
  else s.raiseError .corrupted

/-- Phases 4 and 5 of 43_decoder.md R101, from `CS <- 1` on (R105). -/
def State.decodeInterior (s : State) : State :=
  match State.decodeWindows ((s.inLen - 2) / 6) s.initCs with
  | .ok t => t.decodeFinal
  | .error (e, t) => t.raiseError e

/-- The whole command after its cursors are cleared: the five phases in order, the first error ending
the command (43_decoder.md R101, 60_exceptions.md R132). -/
def decodeBody (s : State) : State :=
  if s.isEmptyLiteral then s.succeed
  else
    match shapeError s.hasHeader s.hasTrailer s.inLen with
    | some e => s.raiseError e
    | none =>
      match s.scanAlphabet 1 (s.inLen - 2) with
      | some i => s.raiseError (.invalidByte i)
      | none => s.decodeInterior

/-- DECODE (43_decoder.md R101). -/
def execDecode (s : State) : Host.Outcome State Fault Refusal := runCommand decodeBody s

end Sys2Proof.Machine
end

