-- ==== Sys2Proof/Machine/Encoder.lean ====
section
/-! DEFINITION. The ENCODE command (42_encoder.md R85 to R97). -/

namespace Sys2Proof.Machine

/-- `emit_triple(v, CS)` (42_encoder.md R88). -/
def State.emitTriple (s : State) (v : Byte) : State := s.emitAll (tripleChars v s.cs)

/-- `emit_pair(r)` (42_encoder.md R89). -/
def State.emitPair (s : State) (r : Byte) : State := s.emitAll (pairChars r)

/-- `emit_parity(CS)` (42_encoder.md R90). -/
def State.emitParity (s : State) : State := s.emitAll (parityChars s.cs)

/-- One group of two bytes, the checksum step last (42_encoder.md R87 step 4, R92). -/
def State.encodeGroup (s : State) (left right : Byte) : State :=
  (((s.emitTriple left).emitPair right).stepCs left right).advance 2

/-- Step 4 of 42_encoder.md R87: groups of two bytes "while at least 2 remain". The first argument
bounds the number of rounds; `n / 2` rounds are all there are (70_reset_and_hazards.md R162). -/
def State.encodeGroups : Nat → State → State
  | 0, s => s
  | k + 1, s =>
    if 2 ≤ s.inLen - s.ip then
      State.encodeGroups k (s.encodeGroup (s.memRead s.ip) (s.memRead (s.ip + 1)))
    else s

/-- Step 5 of 42_encoder.md R87: the final triple when one byte remains, else the parity tuple. -/
def State.encodeFinal (s : State) : State :=
  if s.inLen - s.ip = 1 then (s.emitTriple (s.memRead s.ip)).advance 1 else s.emitParity

/-- The whole command after its cursors are cleared (42_encoder.md R87): the empty literal (R86), or
header, `CS <- 1`, groups, final group, trailer (R91). -/
def encodeBody (s : State) : State :=
  if s.inLen = 0 then (s.emitAll emptyLiteral).succeed
  else
    (((State.encodeGroups (s.inLen / 2) (s.emit headerChar).initCs).encodeFinal).emit
      trailerChar).succeed

/-- ENCODE (42_encoder.md R87). It has no error outcome (R95). -/
def execEncode (s : State) : Host.Outcome State Fault Refusal := runCommand encodeBody s

end Sys2Proof.Machine
end

