-- ==== Sys2Proof/Decode.lean ====
section
/-! DEFINITION. The command decoder and encoder (30_encoding.md R45 to R47). -/

namespace Sys2Proof

/-- The opcode map of 30_encoding.md R46, total on the one bit that `CMD` takes: 0 is ENCODE, 1 is
DECODE. -/
def decodeOp (op : BitVec 1) : Instr :=
  if op = 0#1 then .encode else .decode

/-- The bit the host writes to `CMD` to start the command (30_encoding.md R46). -/
def encodeOp : Instr → BitVec 1
  | .encode => 0#1
  | .decode => 1#1

/-- Why a sequence of bytes holds no command. -/
inductive DecodeRefusal where
  /-- There is no byte to take the command bit from. -/
  | noCommandByte
  deriving DecidableEq, Repr

/-- Command format `CMD1` carried in a byte: the field `op` is bit 0 of the value written to `CMD`
(30_encoding.md R45, R46; the mask of both rows of spec/opcode_table.json is `0x1`). Bits 7 to 1 of
the carrying byte do not reach the 1-bit port (DEDUCED, log entry 14). The rest of the bytes is
handed back. -/
def decodeInstr : List Byte → Except DecodeRefusal (Instr × List Byte)
  | [] => .error .noCommandByte
  | w :: rest => .ok (decodeOp (w.extractLsb' 0 1), rest)

/-- The one byte that carries a command: the command bit, upper bits 0. -/
def encodeInstr (i : Instr) : List Byte := [(encodeOp i).setWidth 8]

/-- The bytes of a word of `n` bytes, least significant byte first. -/
def wordBytes : Nat → Nat → List Byte
  | 0, _ => []
  | n + 1, w => BitVec.ofNat 8 w :: wordBytes n (w / 256)

/-- What the decoder reads from an instruction whose bits are `w`, numbered as
spec/opcode_table.json numbers them. The longest instruction is one byte, so at least one byte is
laid out. -/
def decodeTableWord (nbits w : Nat) : Option Instr :=
  match decodeInstr (wordBytes (max 1 (nbits / 8)) w) with
  | .ok (i, _) => some i
  | .error _ => none

end Sys2Proof
end

