-- ==== Sys2Proof/Machine/HostPort.lean ====
section
/-! DEFINITION. What the host does to the block (10_state.md R25, 70_reset_and_hazards.md R158, R166),
and how the next command comes to run. -/

namespace Sys2Proof.Machine

/-- The host reads something: its reply is kept and nothing else changes (20_memory.md R34: a read
has no side effect). -/
def State.reply (s : State) (r : HostReply) : State := { s with seen := s.seen ++ [r] }

/-- The reset input (70_reset_and_hazards.md R155): the state of 10_state.md R24. IN is unspecified
anew, so the epoch moves on (log entry 3). -/
def State.hostReset (s : State) : State :=
  State.afterReset s.params (s.epoch + 1) s.host s.seen

/-- What a host access does (10_state.md R12, R13, R25). An index that does not exist faults
(20_memory.md R30, log entry 10); `IN_LEN` above `IN_MAX` and a read of OUT at or above `OUT_LEN`
are refused (60_exceptions.md R138). -/
def hostAccess (s : State) : Access → Host.Outcome State Fault Refusal
  | .writeIn i b =>
    if i < s.params.inMax then .next { s with inBuf := s.inBuf.write i b }
    else .fault .noSuchInByte
  | .writeInLen n =>
    if n ≤ s.params.inMax then .next { s with inLen := n } else .refused .inLenAboveCapacity
  | .readIn i =>
    if i < s.params.inMax then .next (s.reply (.inByte i (s.memRead i))) else .fault .noSuchInByte
  | .readInLen => .next (s.reply (.inLen s.inLen))
  | .readOut j =>
    if j < s.params.outMax then
      if j < s.outLen then
        match s.outBuf.read? j with
        | some b => .next (s.reply (.outByte j b))
        | none => .refused .outReadAboveLength
      else .refused .outReadAboveLength
    else .fault .noSuchOutByte
  | .readOutLen => .next (s.reply (.outLen s.outLen))
  | .readErr => .next (s.reply (.err s.err))
  | .readErrPos => .next (s.reply (.errPos s.errPos))

/-- What the next step is: run a command from a state, or an outcome already reached. -/
inductive Move where
  /-- The host wrote `CMD`: run this command from this state. -/
  | run (i : Instr) (s : State)
  /-- The step ends so. -/
  | done (o : Host.Outcome State Fault Refusal)

/-- A host access is allowed while the block is idle only (70_reset_and_hazards.md R160,
60_exceptions.md R138). -/
def whenIdle (s : State) (m : Move) : Move :=
  match s.phase with
  | .idle => m
  | .running => .done (.refused .hostWhileRunning)

/-- The host's action `a` on the state `s`, from whose list it is already taken. A write of `CMD` is
decoded and runs at once: the command is a single step from the state before the write
(70_reset_and_hazards.md R160). Reset is accepted at any time (R155). -/
def hostMove (s : State) : HostAction → Move
  | .access acc => whenIdle s (.done (hostAccess s acc))
  | .writeCmd op => whenIdle s (.run (decodeOp op) s)
  | .reset => .done (.next s.hostReset)

/-- The next move: the host's oldest pending action. With none pending the block "is idle between
commands and holds its registers" (60_exceptions.md R141). A configuration that breaks 00_scope.md
R5 is refused. -/
def nextMove (s : State) : Move :=
  if s.params.wf then
    match s.host with
    | [] => .done (.next s)
    | a :: rest => hostMove { s with host := rest } a
  else .done (.refused .badConfiguration)

/-- The host's script for loading an input (70_reset_and_hazards.md R158 steps 1 and 2,
30_encoding.md R60): the bytes to `IN[i ..]`, in order. -/
def loadBytes : Nat → List Byte → List HostAction
  | _, [] => []
  | i, b :: bs => .access (.writeIn i b) :: loadBytes (i + 1) bs

/-- The host's call of a command on an input (30_encoding.md R60, 70_reset_and_hazards.md R158 steps 1
to 3): load the bytes, write the length, write the command bit. -/
def callScript (i : Instr) (bs : List Byte) : List HostAction :=
  loadBytes 0 bs ++ [.access (.writeInLen bs.length), .writeCmd (encodeOp i)]

end Sys2Proof.Machine
end

