-- ==== Sys2Proof/Machine/Step.lean ====
section
/-! DEFINITION. One step of the machine: the host's next pending action, a command being one atomic
step (70_reset_and_hazards.md R160). -/

namespace Sys2Proof.Machine

/-- One step. -/
def step (s : State) : Host.Outcome State Fault Refusal :=
  match nextMove s with
  | .run i t => exec i t
  | .done o => o

/-- `s` with the command whose bits are `w` as the host's next action: a write of bit 0 of `w` to
`CMD`, the block being idle to take it. The very next step runs it (log entry 6). -/
def State.withFetchWord (s : State) (_nbits w : Nat) : State :=
  { s with phase := .idle, host := .writeCmd (BitVec.ofNat 1 w) :: s.host }

end Sys2Proof.Machine
end

