-- ==== Sys2Proof/Safety.lean ====
section
/-! DEFINITION. The terms claims use: what a command works on and gives, the invariant between
commands, and the two functions of the source on plain lists (30_encoding.md R48 to R57), to which
the commands are compared. -/

namespace Sys2Proof.Machine

/-! ### Input and outcome of a command -/

/-- A state a command may start from: a configuration of this hardware, and `IN_LEN <= IN_MAX`
(00_scope.md R5, 10_state.md R12). -/
abbrev State.Ready (s : State) : Prop := s.params.wf ∧ s.inLen ≤ s.params.inMax

/-- The whole input of a command, `IN[0 .. IN_LEN-1]` (42_encoder.md R85, 43_decoder.md R100). -/
def State.input (s : State) : List Byte := s.chars 0 s.inLen

/-- `OUT[j]`, where it has a value. -/
def State.outAt (s : State) (j : Nat) : Option Byte := s.outBuf.read? j

/-- The result bytes `OUT[0 .. OUT_LEN-1]` (10_state.md R13). -/
def State.output (s : State) : List (Option Byte) := (List.range s.outLen).map s.outAt

/-- The observation of a command (70_reset_and_hazards.md R167): "the tuple (`ERR`, `ERRPOS`,
`OUT_LEN`, `OUT[0 .. OUT_LEN-1]`) and nothing else". -/
structure Observation where
  err : BitVec 3
  errPos : Nat
  outLen : Nat
  output : List (Option Byte)
  deriving DecidableEq, Repr

/-- What the host can observe of the last command (70_reset_and_hazards.md R167). -/
def State.observe (s : State) : Observation :=
  { err := s.err, errPos := s.errPos, outLen := s.outLen, output := s.output }

/-- The checksum after the first `k` groups of two input bytes (41_checksum.md R79): 1, then one step
a group. -/
def State.csAfter (s : State) : Nat → Fin 36
  | 0 => csInit
  | k + 1 => csnext (s.csAfter k) (s.memRead (2 * k)) (s.memRead (2 * k + 1))

/-- What a command leaves unchanged: the configuration, IN and IN_LEN (10_state.md R12), and what
stands outside the block. The block is idle afterwards (70_reset_and_hazards.md R167). -/
structure CommandFrame (s t : State) : Prop where
  params : t.params = s.params
  inBuf : t.inBuf = s.inBuf
  inLen : t.inLen = s.inLen
  epoch : t.epoch = s.epoch
  host : t.host = s.host
  seen : t.seen = s.seen
  phase : t.phase = .idle

/-! ### The invariant between commands -/

/-- What holds between commands (10_state.md R26), with the canonical form and the bounds of the two
buffers (20_memory.md R30, R38) and of the hidden cursors (10_state.md R18, R20). -/
structure State.Inv (s : State) : Prop where
  /-- The configuration meets 00_scope.md R5. -/
  params_wf : s.params.wf
  /-- `IN_LEN <= IN_MAX`. -/
  inLen_le : s.inLen ≤ s.params.inMax
  /-- `OUT_LEN <= OUT_MAX`. -/
  outLen_le : s.outLen ≤ s.params.outMax
  /-- `ERR != 0` implies `OUT_LEN = 0`. -/
  err_outLen : s.err ≠ 0 → s.outLen = 0
  /-- `ERRPOS != 0` implies `ERR = 4`. -/
  errPos_err : s.errPos ≠ 0 → s.err = 4
  /-- `ERRPOS` is an index of IN (10_state.md R16). -/
  errPos_lt : s.errPos < s.params.inMax
  /-- No command is running. -/
  idle : s.phase = .idle
  /-- IN is in canonical form. -/
  in_wf : s.inBuf.wf
  /-- IN lists only indices that exist. -/
  in_below : s.inBuf.below s.params.inMax
  /-- OUT is in canonical form. -/
  out_wf : s.outBuf.wf
  /-- The bytes of OUT that have a value are `OUT[0 .. OUT_LEN-1]`. -/
  out_range : s.outBuf.map Prod.fst = List.range s.outLen
  /-- After a command `op` equals `OUT_LEN` on success (10_state.md R18). -/
  op_eq : s.err = 0 → s.op = s.outLen
  /-- The input cursor never passes the input buffer (10_state.md R20). -/
  ip_le : s.ip ≤ s.params.inMax
  /-- The output cursor never passes the output buffer. -/
  op_le : s.op ≤ s.params.outMax

/-! ### The source's two functions on lists -/

/-- The characters of one window, the triple of `l` under `cs` and the pair of `r`
(30_encoding.md R48, R50). -/
def Codec.windowChars (l r : Byte) (cs : Fin 36) : List Byte := tripleChars l cs ++ pairChars r

/-- The windows of the full groups of a byte sequence, the checksum stepping after each; an odd last
byte is left out. -/
def Codec.windows : List Byte → Fin 36 → List Byte
  | l :: r :: rest, cs => Codec.windowChars l r cs ++ Codec.windows rest (csnext cs l r)
  | [_], _ => []
  | [], _ => []

/-- The checksum after the full groups of a byte sequence (41_checksum.md R79). -/
def Codec.csOf : List Byte → Fin 36 → Fin 36
  | l :: r :: rest, cs => Codec.csOf rest (csnext cs l r)
  | [_], cs => cs
  | [], cs => cs

/-- The windows of a byte sequence under a starting checksum and then its final group: a triple for an
odd last byte, else the parity tuple (30_encoding.md R48). -/
def Codec.encodeFrom : List Byte → Fin 36 → List Byte
  | l :: r :: rest, cs => Codec.windowChars l r cs ++ Codec.encodeFrom rest (csnext cs l r)
  | [v], cs => tripleChars v cs
  | [], cs => parityChars cs

/-- `encode(bytes) -> string`: header, windows, final group, trailer (30_encoding.md R48), with no
special case for the empty sequence (42_encoder.md R86). -/
def Codec.encodeString (bs : List Byte) : List Byte :=
  headerChar :: (Codec.encodeFrom bs csInit ++ [trailerChar])

/-- The position of the first character outside the alphabet, counted from `i`
(43_decoder.md R104). -/
def Codec.firstInvalid : Nat → List Byte → Option Nat
  | _, [] => none
  | i, ch :: chs => if inAlpha ch then Codec.firstInvalid (i + 1) chs else some i

/-- The reading of an interior under a starting checksum: a window while 6 characters remain, else a
final group of exactly 3 characters (30_encoding.md R57, 43_decoder.md R106, R116). -/
def Codec.decodeFrom : List Byte → Fin 36 → Except DecodeError (List Byte)
  | w0 :: w1 :: w2 :: w3 :: w4 :: w5 :: rest, cs =>
    match readWindow w0 w1 w2 w3 w4 w5 cs with
    | .error e => .error e
    | .ok (b0, b1) =>
      match Codec.decodeFrom rest (csnext cs b0 b1) with
      | .error e => .error e
      | .ok bs => .ok (b0 :: b1 :: bs)
  | [t0, t1, t2], cs =>
    match readFinal t0 t1 t2 cs with
    | .error e => .error e
    | .ok none => .ok []
    | .ok (some v) => .ok [v]
  | _, _ => .error .corrupted

/-- `decode(string) -> bytes | Error`: shape, alphabet, interior (43_decoder.md R101 phases 2 to 5),
with no special case for `xexax` (43_decoder.md R102). -/
def Codec.decodeString (cs : List Byte) : Except DecodeError (List Byte) :=
  match shapeError (cs.head? == some headerChar) (cs.getLast? == some trailerChar) cs.length with
  | some e => .error e
  | none =>
    match Codec.firstInvalid 1 (cs.drop 1).dropLast with
    | some i => .error (.invalidByte i)
    | none => Codec.decodeFrom (cs.drop 1).dropLast csInit

/-! ### The checks of a unit, in their order -/

/-- The numeric check fails on the two vowels of a triple: a field recovered under `cs` is 4 or 5
(43_decoder.md R108, R109). -/
def Codec.numericFails (p r : Byte) (cs : Fin 36) : Bool :=
  match vidx? p, vidx? r with
  | some a, some c =>
    decide (4 ≤ (a.val + 6 - cs.val % 6) % 6 ∨ 4 ≤ (c.val + 6 - cs.val / 6) % 6)
  | _, _ => false

/-- The first check of a window that fails, in the order of 43_decoder.md R113, with its error
(43_decoder.md R107, R109, R111, R112). -/
def Codec.windowError (w0 w1 w2 w3 w4 w5 : Byte) (cs : Fin 36) : Option DecodeError :=
  if charClass w0 ≠ .vowel then some .expectedVowel
  else if charClass w1 = .sentinel then some .corrupted
  else if charClass w1 ≠ .dataCons then some .expectedConsonant
  else if charClass w2 ≠ .vowel then some .expectedVowel
  else if Codec.numericFails w0 w2 cs then some .corrupted
  else if charClass w3 = .sentinel then some .corrupted
  else if charClass w3 ≠ .dataCons then some .expectedConsonant
  else if w4 ≠ sepChar then some .corrupted
  else if charClass w5 = .sentinel then some .corrupted
  else if charClass w5 ≠ .dataCons then some .expectedConsonant
  else none

/-- The first check of a final group that fails, in the order of 43_decoder.md R117, with its error
(43_decoder.md R107, R109, R114, R115). -/
def Codec.finalError (t0 t1 t2 : Byte) (cs : Fin 36) : Option DecodeError :=
  if charClass t0 ≠ .vowel then some .expectedVowel
  else if charClass t1 = .sentinel then
    if charClass t2 ≠ .vowel then some .expectedVowel
    else if [t0, t1, t2] ≠ parityChars cs then some .checksumMismatch
    else none
  else if charClass t1 ≠ .dataCons then some .expectedConsonant
  else if charClass t2 ≠ .vowel then some .expectedVowel
  else if Codec.numericFails t0 t2 cs then some .corrupted
  else none

end Sys2Proof.Machine
end

