-- ==== Sys2Proof/Certificates/Slice0/Obligations.lean ====
section
/-! DEFINITION. The statements for the provers: what spec/ says the commands and the machine do. -/

open Sys2Proof Sys2Proof.Machine

/-! ### The command words, and how a step runs them -/

/-- The opcode map of 30_encoding.md R46: writing 0 to `CMD` is ENCODE, writing 1 is DECODE; with no byte
there is no command. -/
def Obligations.CommandWordsDecodeAsMapped : Prop :=
  decodeOp 0#1 = .encode ∧ decodeOp 1#1 = .decode ∧
    decodeTableWord 8 0 = some .encode ∧ decodeTableWord 8 1 = some .decode ∧
    decodeInstr [0x00#8] = .ok (.encode, []) ∧ decodeInstr [0x01#8] = .ok (.decode, []) ∧
    decodeInstr [] = .error .noCommandByte

/-- Decoding undoes encoding, for every command and whatever follows it, and every value of the one bit
is the encoding of a command (30_encoding.md R45 to R47). -/
def Obligations.EveryCommandDecodesFromItsEncoding : Prop :=
  (∀ (i : Instr) (rest : List Byte), decodeInstr (encodeInstr i ++ rest) = .ok (i, rest)) ∧
    (∀ i : Instr, decodeOp (encodeOp i) = i) ∧ ∀ op : BitVec 1, encodeOp (decodeOp op) = op

/-- A step runs the decoded command: when the host's oldest action writes `op` to `CMD` and the block is
idle, the step is `exec` of the command `op` decodes to, the write taken from the host's list
(10_state.md R14, 70_reset_and_hazards.md R160); and `withFetchWord` sets up exactly that. -/
def Obligations.StepRunsTheCommandWritten : Prop :=
  (∀ (s : State) (op : BitVec 1) (rest : List HostAction),
      s.params.wf → s.phase = .idle → s.host = .writeCmd op :: rest →
        step s = exec (decodeOp op) { s with host := rest }) ∧
    ∀ (s : State) (nbits w : Nat) (i : Instr),
      s.params.wf → decodeTableWord nbits w = some i →
        step (s.withFetchWord nbits w) = exec i { s with phase := .idle }

/-- With no host action pending the block "is idle between commands and holds its registers"
(60_exceptions.md R141): a step changes nothing. -/
def Obligations.IdleBlockHoldsItsRegisters : Prop :=
  ∀ s : State, s.params.wf → s.host = [] → step s = .next s

/-! ### Reset -/

/-- Reset (10_state.md R24, 70_reset_and_hazards.md R155): asserted from any state, also while a command
runs, it leaves `IN_LEN`, `OUT_LEN`, `ERR`, `ERRPOS` and the cursors 0, `CS` 1, the block idle, every byte
of IN and OUT unspecified, and the ROMs are what they always are; so does `State.reset`, from which a
run of the model starts (that power-on comes with a reset is the model's choice, log entry 18). The
model's own: that an unspecified byte of IN is a free value drawn by `epoch` (log entry 3) and one of
OUT has no value (log entry 4), the fields `host` and `seen` (log entries 5, 7), and that these and the
configuration survive a reset (log entry 9). -/
def Obligations.ResetLeavesTheResetValues : Prop :=
  (State.reset.inLen = 0 ∧ State.reset.outLen = 0 ∧ State.reset.err = 0 ∧ State.reset.errPos = 0 ∧
      State.reset.cs = 1 ∧ State.reset.ip = 0 ∧ State.reset.op = 0 ∧ State.reset.phase = .idle ∧
      ∀ i, State.reset.memRead i = Config.unspecifiedIn State.reset.epoch i ∧
        State.reset.outAt i = none) ∧
    ∀ (s : State) (rest : List HostAction), s.params.wf → s.host = .reset :: rest →
      ∃ t, step s = .next t ∧ t.inLen = 0 ∧ t.outLen = 0 ∧ t.err = 0 ∧ t.errPos = 0 ∧ t.cs = 1 ∧
        t.ip = 0 ∧ t.op = 0 ∧ t.phase = .idle ∧
        (∀ i, t.memRead i = Config.unspecifiedIn (s.epoch + 1) i ∧ t.outAt i = none) ∧
        t.params = s.params ∧ t.host = rest ∧ t.seen = s.seen ∧ t.epoch = s.epoch + 1

/-- Straight after reset both commands are legal: ENCODE writes `xexax`, DECODE reports `Corrupted`
(70_reset_and_hazards.md R156, derived there). -/
def Obligations.CommandsRunStraightAfterReset : Prop :=
  ∀ s : State, s.params.wf → s.host = [] → ∃ t u,
    exec .encode s.hostReset = .next t ∧
      t.output = [some 0x78#8, some 0x65#8, some 0x78#8, some 0x61#8, some 0x78#8] ∧ t.err = 0 ∧
    exec .decode s.hostReset = .next u ∧ u.err = 3 ∧ u.errPos = 0 ∧ u.outLen = 0

/-! ### The invariant -/

/-- The reset state, from which a run starts (log entry 18), meets the invariant between commands. -/
def Obligations.ResetStateMeetsTheInvariant : Prop := State.reset.Inv

/-- The invariant between commands (10_state.md R26, with the canonical form of the buffers, the bounds of
20_memory.md R38 and the cursors of 10_state.md R18) is kept by every step, from every state that meets
it, whatever the host does. That OUT has a value below `OUT_LEN` only, and what it says of the cursors,
rest on the model's choices (log entries 4, 8). -/
def Obligations.EveryStepKeepsTheInvariant : Prop :=
  ∀ s t : State, s.Inv → step s = .next t → t.Inv

/-- The `LENW`-bit registers fit their width: `LENW` is the smallest `w` with `2^w > OUT_MAX`
(00_scope.md R5), and in every state that meets the invariant `IN_LEN`, `OUT_LEN`, `ERRPOS` and the two
cursors are below `2^LENW`. -/
def Obligations.LengthRegistersFitTheirWidth : Prop :=
  ∀ s : State, s.Inv →
    (s.params.outMax < 2 ^ s.params.lenW ∧ ∀ w, s.params.outMax < 2 ^ w → s.params.lenW ≤ w) ∧
      s.inLen < 2 ^ s.params.lenW ∧ s.outLen < 2 ^ s.params.lenW ∧ s.errPos < 2 ^ s.params.lenW ∧
      s.ip < 2 ^ s.params.lenW ∧ s.op < 2 ^ s.params.lenW

/-! ### The alphabet and the checksum machine -/

/-- The ROM contents (40_alphabet_roms.md R65, R66, R68): the bytes of `aeiouy` and
`bcdfghklmnprstvzx`, and the special characters (R67). The entries 1, 10 and 15 of the consonant ROM
are the spec's general knowledge (log entry 12). -/
def Obligations.AlphabetRomsHoldTheirCodes : Prop :=
  (List.finRange 6).map vowelRom = [0x61#8, 0x65#8, 0x69#8, 0x6F#8, 0x75#8, 0x79#8] ∧
    (List.finRange 17).map consRom =
      [0x62#8, 0x63#8, 0x64#8, 0x66#8, 0x67#8, 0x68#8, 0x6B#8, 0x6C#8, 0x6D#8, 0x6E#8, 0x70#8,
        0x72#8, 0x73#8, 0x74#8, 0x76#8, 0x7A#8, 0x78#8] ∧
    headerChar = 0x78#8 ∧ trailerChar = 0x78#8 ∧ sepChar = 0x2D#8 ∧ sentinelChar = 0x78#8

/-- "the 6 vowels, the 17 consonants and `-` are 24 distinct characters" (40_alphabet_roms.md R69): no
vowel is a consonant, neither is the separator, and within each ROM no character occurs twice. -/
def Obligations.AlphabetRomsAreDisjoint : Prop :=
  Function.Injective vowelRom ∧ Function.Injective consRom ∧
    (∀ i j, vowelRom i ≠ consRom j) ∧ (∀ i, vowelRom i ≠ sepChar) ∧ ∀ j, consRom j ≠ sepChar

/-- The classifier (40_alphabet_roms.md R70), line by line, and alphabet membership (R72): `inalpha(ch)`
is true exactly when the class is not OTHER. -/
def Obligations.ClassifierFollowsTheRoms : Prop :=
  ∀ ch : Byte,
    (charClass ch = .vowel ↔ ∃ i, vowelRom i = ch) ∧
      (charClass ch = .dataCons ↔ ∃ i : Fin 16, consRom i.castSucc = ch) ∧
      (charClass ch = .sentinel ↔ ch = consRom 16) ∧ (charClass ch = .sep ↔ ch = 0x2D#8) ∧
      (charClass ch = .other ↔
        (∀ i, vowelRom i ≠ ch) ∧ (∀ j, consRom j ≠ ch) ∧ ch ≠ 0x2D#8) ∧
      (inAlpha ch = true ↔ charClass ch ≠ .other)

/-- The transition of the checksum machine, computed exactly on naturals and then reduced, with the
worked example (41_checksum.md R77); a step writes it to `CS` and nothing else; and the two outputs make
up the state (R80). -/
def Obligations.ChecksumStepFormula : Prop :=
  (∀ (cs : Fin 36) (b0 b1 : Byte),
      (csnext cs b0 b1).val = (cs.val * 5 + b0.toNat * 7 + b1.toNat) % 36) ∧
    csnext 1 0x31#8 0x32#8 = 2 ∧
    (∀ (s : State) (b0 b1 : Byte), s.stepCs b0 b1 = { s with cs := csnext s.cs b0 b1 }) ∧
    ∀ cs : Fin 36, (cslo cs).val = cs.val % 6 ∧ (cshi cs).val = cs.val / 6 ∧
      cs.val = (cslo cs).val + 6 * (cshi cs).val

/-- For fixed bytes the checksum step is a bijection of 0 to 35, and every state is reached from every
state in one step (41_checksum.md R84 (a), (b), derived there). -/
def Obligations.ChecksumStepIsABijection : Prop :=
  (∀ b0 b1 : Byte, Function.Bijective (fun cs => csnext cs b0 b1)) ∧
    ∀ cs cs' : Fin 36, ∃ b0 b1, csnext cs b0 b1 = cs'

/-- `emit_triple` (42_encoder.md R88): OUT gets `VOWEL[a]`, `CONS[b]`, `VOWEL[c]` at the output cursor,
with `a = (v[7:6] + cs) mod 6`, `b = v[5:2]`, `c = (v[1:0] + cs / 6) mod 6`; the cursor moves on by 3,
no other byte of OUT and no register but the cursor changes. -/
def Obligations.EmitTripleWritesThreeCharacters : Prop :=
  ∀ (s : State) (v : Byte), ∃ (a c : Fin 6) (b : Fin 16),
    a.val = (v.toNat / 64 + s.cs.val) % 6 ∧ b.val = v.toNat / 4 % 16 ∧
      c.val = (v.toNat % 4 + s.cs.val / 6) % 6 ∧
      (s.emitTriple v).outAt s.op = some (vowelRom a) ∧
      (s.emitTriple v).outAt (s.op + 1) = some (consRom b.castSucc) ∧
      (s.emitTriple v).outAt (s.op + 2) = some (vowelRom c) ∧
      (∀ j, (j < s.op ∨ s.op + 3 ≤ j) → (s.emitTriple v).outAt j = s.outAt j) ∧
      s.emitTriple v = { s with op := s.op + 3, outBuf := (s.emitTriple v).outBuf }

/-- `emit_pair` (42_encoder.md R89): `CONS[d]`, `-`, `CONS[e]` with the high and the low nibble of `r`;
"The pair does not read `CS`". -/
def Obligations.EmitPairWritesThreeCharacters : Prop :=
  ∀ (s : State) (r : Byte), ∃ d e : Fin 16,
    d.val = r.toNat / 16 ∧ e.val = r.toNat % 16 ∧
      (s.emitPair r).outAt s.op = some (consRom d.castSucc) ∧
      (s.emitPair r).outAt (s.op + 1) = some 0x2D#8 ∧
      (s.emitPair r).outAt (s.op + 2) = some (consRom e.castSucc) ∧
      (∀ j, (j < s.op ∨ s.op + 3 ≤ j) → (s.emitPair r).outAt j = s.outAt j) ∧
      s.emitPair r = { s with op := s.op + 3, outBuf := (s.emitPair r).outBuf } ∧
      ∀ cs, ({ s with cs := cs }.emitPair r).outBuf = (s.emitPair r).outBuf

/-- `emit_parity` (42_encoder.md R90): `VOWEL[cs mod 6]`, the sentinel `x`, `VOWEL[cs / 6]`. -/
def Obligations.EmitParityWritesThreeCharacters : Prop :=
  ∀ s : State, ∃ a c : Fin 6,
    a.val = s.cs.val % 6 ∧ c.val = s.cs.val / 6 ∧
      s.emitParity.outAt s.op = some (vowelRom a) ∧
      s.emitParity.outAt (s.op + 1) = some 0x78#8 ∧
      s.emitParity.outAt (s.op + 2) = some (vowelRom c) ∧
      (∀ j, (j < s.op ∨ s.op + 3 ≤ j) → s.emitParity.outAt j = s.outAt j) ∧
      s.emitParity = { s with op := s.op + 3, outBuf := s.emitParity.outBuf }

/-- Triple reversal inverts triple emission (43_decoder.md R108), and what passes the numeric check (R109)
is what the encoder would write, so the decoder's byte has exactly one spelling under a checksum. -/
def Obligations.TripleReversalInvertsEmission : Prop :=
  ∀ (p r : Fin 6) (q : Fin 16) (cs : Fin 36) (v : Byte),
    untriple p q r cs = .ok v ↔ tripleA v cs = p ∧ tripleB v = q ∧ tripleC v cs = r

/-- The numeric check (43_decoder.md R108, R109): with `hi` and `lo` the fields recovered under `cs`,
`Corrupted` when one is 4 or 5, otherwise the byte `(hi << 6) | (mid << 2) | lo`; "For a given `cs`,
exactly 4 of the 6 vowels are acceptable at each vowel position". -/
def Obligations.NumericCheckAcceptsFourVowels : Prop :=
  ∀ cs : Fin 36,
    ((List.finRange 6).filter (fun p => decide ((p.val + 6 - cs.val % 6) % 6 < 4))).length = 4 ∧
      ((List.finRange 6).filter (fun r => decide ((r.val + 6 - cs.val / 6) % 6 < 4))).length = 4 ∧
      ∀ (p r : Fin 6) (q : Fin 16),
        ((4 ≤ (p.val + 6 - cs.val % 6) % 6 ∨ 4 ≤ (r.val + 6 - cs.val / 6) % 6) →
          untriple p q r cs = .error .corrupted) ∧
        ((p.val + 6 - cs.val % 6) % 6 < 4 → (r.val + 6 - cs.val / 6) % 6 < 4 →
          ∃ v, untriple p q r cs = .ok v ∧
            v.toNat = (p.val + 6 - cs.val % 6) % 6 * 64 + q.val * 4 + (r.val + 6 - cs.val / 6) % 6)

/-! ### Raising an error -/

/-- `raise E(info)` (60_exceptions.md R134) with the codes of R131: `OUT_LEN <- 0`, `ERR <- code(E)`,
`ERRPOS <- pos` for `InvalidByte(pos)` and 0 for every other error; IN and IN_LEN are unchanged, `CS` and
the cursors are left wherever they were, and the block is idle. The model's own: that no byte of OUT,
which R134 leaves "unspecified", keeps a value (log entry 4), and the fields `epoch`, `host` and `seen`
of `CommandFrame` (log entries 3, 5, 7). -/
def Obligations.RaiseWritesTheOutcomeRegisters : Prop :=
  ∀ (s : State) (e : DecodeError),
    (s.raiseError e).outLen = 0 ∧
      ((s.raiseError e).err, (s.raiseError e).errPos) =
        (match e with
          | .malformedHeader => (1#3, 0)
          | .malformedTrailer => (2#3, 0)
          | .corrupted => (3#3, 0)
          | .invalidByte pos => (4#3, pos)
          | .expectedVowel => (5#3, 0)
          | .expectedConsonant => (6#3, 0)
          | .checksumMismatch => (7#3, 0)) ∧
      CommandFrame s (s.raiseError e) ∧ (∀ j, (s.raiseError e).outAt j = none) ∧
      (s.raiseError e).cs = s.cs ∧ (s.raiseError e).ip = s.ip ∧ (s.raiseError e).op = s.op

/-! ### ENCODE -/

/-- "If input is empty, emit the canonical literal `xexax` and stop" (42_encoder.md R86): OUT holds
`78 65 78 61 78`, `OUT_LEN` is 5, `ERR` and `ERRPOS` are 0, and `CS` is not written (R87). -/
def Obligations.EncodeOfEmptyInputWritesXexax : Prop :=
  ∀ s : State, s.Ready → s.inLen = 0 → ∃ t, exec .encode s = .next t ∧ t.outLen = 5 ∧
    t.output = [some 0x78#8, some 0x65#8, some 0x78#8, some 0x61#8, some 0x78#8] ∧
    t.err = 0 ∧ t.errPos = 0 ∧ t.cs = s.cs

/-- The status ENCODE writes (42_encoder.md R94, R95): it always succeeds, `OUT_LEN = 6 * (n / 2) + 5`,
`ERR = 0`, `ERRPOS = 0`; `CS` is left at the value after the last step, untouched when `n = 0`; IN and
IN_LEN are unchanged. -/
def Obligations.EncodeAlwaysSucceeds : Prop :=
  ∀ s : State, s.Ready → ∃ t, exec .encode s = .next t ∧
    t.outLen = 6 * (s.inLen / 2) + 5 ∧ t.err = 0 ∧ t.errPos = 0 ∧
    (s.inLen = 0 → t.cs = s.cs) ∧ (s.inLen ≠ 0 → t.cs = s.csAfter (s.inLen / 2)) ∧
    t.inBuf = s.inBuf ∧ t.inLen = s.inLen

/-- The windows ENCODE writes (30_encoding.md R50, R52, R53; 42_encoder.md R92): window `j` stands at
index `1 + 6j` of OUT and holds the triple of `IN[2j]` under the checksum after `j` groups, and the pair
of `IN[2j+1]` around its separator. -/
def Obligations.EncodeWritesEveryWindow : Prop :=
  ∀ s : State, s.Ready → ∃ t, exec .encode s = .next t ∧
    ∀ j, j < s.inLen / 2 → ∃ (a c : Fin 6) (b d e : Fin 16),
      a.val = ((s.memRead (2 * j)).toNat / 64 + (s.csAfter j).val) % 6 ∧
        b.val = (s.memRead (2 * j)).toNat / 4 % 16 ∧
        c.val = ((s.memRead (2 * j)).toNat % 4 + (s.csAfter j).val / 6) % 6 ∧
        d.val = (s.memRead (2 * j + 1)).toNat / 16 ∧ e.val = (s.memRead (2 * j + 1)).toNat % 16 ∧
        t.outAt (1 + 6 * j) = some (vowelRom a) ∧
        t.outAt (2 + 6 * j) = some (consRom b.castSucc) ∧
        t.outAt (3 + 6 * j) = some (vowelRom c) ∧
        t.outAt (4 + 6 * j) = some (consRom d.castSucc) ∧
        t.outAt (5 + 6 * j) = some 0x2D#8 ∧
        t.outAt (6 + 6 * j) = some (consRom e.castSucc)

/-- Header, final group and trailer (30_encoding.md R48, R50, R54; 42_encoder.md R87, R91): `x` first
and last; before the trailer a triple of the last byte when the byte count is odd, else the parity
tuple, both under the checksum after the last full group. -/
def Obligations.EncodeWritesHeaderFinalGroupAndTrailer : Prop :=
  ∀ s : State, s.Ready → ∃ t, exec .encode s = .next t ∧ t.outLen = 5 + 6 * (s.inLen / 2) ∧
    t.outAt 0 = some 0x78#8 ∧ t.outAt (4 + 6 * (s.inLen / 2)) = some 0x78#8 ∧
    ∃ (a c : Fin 6) (m : Fin 17),
      t.outAt (1 + 6 * (s.inLen / 2)) = some (vowelRom a) ∧
        t.outAt (2 + 6 * (s.inLen / 2)) = some (consRom m) ∧
        t.outAt (3 + 6 * (s.inLen / 2)) = some (vowelRom c) ∧
        (s.inLen % 2 = 0 → a.val = (s.csAfter (s.inLen / 2)).val % 6 ∧ m.val = 16 ∧
          c.val = (s.csAfter (s.inLen / 2)).val / 6) ∧
        (s.inLen % 2 = 1 →
          a.val = ((s.memRead (s.inLen - 1)).toNat / 64 + (s.csAfter (s.inLen / 2)).val) % 6 ∧
          m.val = (s.memRead (s.inLen - 1)).toNat / 4 % 16 ∧
          c.val = ((s.memRead (s.inLen - 1)).toNat % 4 + (s.csAfter (s.inLen / 2)).val / 6) % 6)

/-- ENCODE refines the source's function on lists: what it writes is `encode(bytes)` with no special
case for the empty sequence (42_encoder.md R86, R87; 90_conflicts.md C7). -/
def Obligations.EncodeRefinesTheListEncoder : Prop :=
  ∀ s : State, s.Ready → ∃ t, exec .encode s = .next t ∧ t.err = 0 ∧ t.errPos = 0 ∧
    t.outLen = (Codec.encodeString s.input).length ∧
    t.output = (Codec.encodeString s.input).map some

/-- Every output character is one of the 24 (42_encoder.md R96 (f)), and `x` appears only as header,
trailer and the middle of a parity tuple (R96 (e), derived there). -/
def Obligations.EncodeOutputStaysInTheAlphabet : Prop :=
  ∀ s : State, s.Ready → ∃ t, exec .encode s = .next t ∧
    ∀ j, j < t.outLen → ∃ ch, t.outAt j = some ch ∧ inAlpha ch = true ∧
      (ch = 0x78#8 → j = 0 ∨ j + 1 = t.outLen ∨ (s.inLen % 2 = 0 ∧ j + 3 = t.outLen))

/-- The frame of ENCODE: configuration, every byte of IN, IN_LEN and what stands outside the block are
unchanged, the block is idle; the bytes of OUT it stores to are `OUT[0 .. 6 * (n / 2) + 4]`
(10_state.md R12, R13). The model's own: every other byte of OUT, which R13 leaves unspecified, is
without a value afterwards (log entry 4); a byte of IN at or above IN_LEN is kept (log entries 3, 17);
and the fields `epoch`, `host` and `seen` (log entries 3, 5, 7). -/
def Obligations.EncodeFrame : Prop :=
  ∀ s t : State, exec .encode s = .next t →
    CommandFrame s t ∧ (∀ i, t.memRead i = s.memRead i) ∧
      (∀ j, j < 6 * (s.inLen / 2) + 5 → (t.outAt j).isSome = true) ∧
      ∀ j, 6 * (s.inLen / 2) + 5 ≤ j → t.outAt j = none

/-! ### DECODE -/

/-- "All or nothing" (43_decoder.md R118, 60_exceptions.md R134): DECODE always ends; on success
`OUT[0 .. OUT_LEN-1]` has a value; on any error `OUT_LEN = 0`; `ERRPOS` is 0 unless the error is
`InvalidByte`. That no other byte of OUT has a value, and none at all after an error, is the model's
choice (log entry 4): R118 and R134 say that such a byte is no result and unspecified. -/
def Obligations.DecodeIsAllOrNothing : Prop :=
  ∀ s : State, s.Ready → ∃ t, exec .decode s = .next t ∧
    (t.err = 0 → ∀ j, (t.outAt j).isSome = true ↔ j < t.outLen) ∧
    (t.err ≠ 0 → t.outLen = 0 ∧ ∀ j, t.outAt j = none) ∧ (t.err ≠ 4 → t.errPos = 0) ∧
    t.inBuf = s.inBuf ∧ t.inLen = s.inLen

/-- Phase 1 (43_decoder.md R102): "when `n = 5` and the five bytes are `78 65 78 61 78`, DECODE succeeds
with `OUT_LEN = 0`"; "The later phases would give the same result for this string"; `CS` is neither
read nor written (10_state.md R11). -/
def Obligations.DecodeOfXexaxIsEmpty : Prop :=
  ∀ s : State, s.Ready → s.input = [0x78#8, 0x65#8, 0x78#8, 0x61#8, 0x78#8] →
    (∃ t, exec .decode s = .next t ∧ t.err = 0 ∧ t.errPos = 0 ∧ t.outLen = 0 ∧ t.cs = s.cs) ∧
      Codec.decodeString s.input = .ok []

/-- Phase 2 (43_decoder.md R103): with `hdr` and `trl` as there, `MalformedTrailer` when `hdr` holds and
the trailer is missing or `n < 2`, `MalformedHeader` when `hdr` fails and `trl` holds, `Corrupted` when
both fail. The clause for the one character `x` is the spec's own decision (92_eei_decisions.md D9). -/
def Obligations.DecodeReportsShapeErrors : Prop :=
  ∀ s : State, s.Ready → ∃ t, exec .decode s = .next t ∧
    ((1 ≤ s.inLen ∧ s.memRead 0 = 0x78#8) →
      (s.memRead (s.inLen - 1) ≠ 0x78#8 ∨ s.inLen < 2) →
        t.err = 2 ∧ t.errPos = 0 ∧ t.outLen = 0 ∧ t.cs = s.cs) ∧
    (¬ (1 ≤ s.inLen ∧ s.memRead 0 = 0x78#8) →
      (1 ≤ s.inLen ∧ s.memRead (s.inLen - 1) = 0x78#8) →
        t.err = 1 ∧ t.errPos = 0 ∧ t.outLen = 0 ∧ t.cs = s.cs) ∧
    (¬ (1 ≤ s.inLen ∧ s.memRead 0 = 0x78#8) →
      ¬ (1 ≤ s.inLen ∧ s.memRead (s.inLen - 1) = 0x78#8) →
        t.err = 3 ∧ t.errPos = 0 ∧ t.outLen = 0 ∧ t.cs = s.cs)

/-- Phase 3 (43_decoder.md R104): when the shape is right, the first interior character outside the
alphabet is reported as `InvalidByte` with its index in the whole string, whatever else is wrong; `CS`
is not written. -/
def Obligations.DecodeReportsTheFirstInvalidByte : Prop :=
  ∀ (s : State) (i : Nat), s.Ready → 2 ≤ s.inLen → s.memRead 0 = 0x78#8 →
    s.memRead (s.inLen - 1) = 0x78#8 → 1 ≤ i → i ≤ s.inLen - 2 → inAlpha (s.memRead i) = false →
    (∀ j, 1 ≤ j → j < i → inAlpha (s.memRead j) = true) →
      ∃ t, exec .decode s = .next t ∧ t.err = 4 ∧ t.errPos = i ∧ t.outLen = 0 ∧ t.cs = s.cs

/-- `InvalidByte` "always means outside the full alphabet" (43_decoder.md R107, 10_state.md R16): when
DECODE reports it, `ERRPOS` is the index of the first interior character outside the alphabet; after
every other outcome of either command `ERRPOS` is 0. -/
def Obligations.InvalidByteMeansOutsideTheAlphabet : Prop :=
  (∀ s t : State, exec .encode s = .next t → t.errPos = 0) ∧
  ∀ s t : State, exec .decode s = .next t →
    (t.err = 4 → 1 ≤ t.errPos ∧ t.errPos ≤ s.inLen - 2 ∧ inAlpha (s.memRead t.errPos) = false ∧
      (∀ j, 1 ≤ j → j < t.errPos → inAlpha (s.memRead j) = true) ∧ s.memRead 0 = 0x78#8 ∧
      s.memRead (s.inLen - 1) = 0x78#8) ∧
    (t.err ≠ 4 → t.errPos = 0)

/-- Phase 4 (43_decoder.md R106 to R113): after any number of good windows, the first window with a
failing check ends the command with the error of its first failing check, in the order of R113, whatever
follows it. -/
def Obligations.DecodeStopsAtTheFirstBadWindow : Prop :=
  ∀ (s : State) (bs rest : List Byte) (w0 w1 w2 w3 w4 w5 : Byte) (e : DecodeError),
    s.Ready → bs.length % 2 = 0 →
    s.input = 0x78#8 :: (Codec.windows bs csInit ++ [w0, w1, w2, w3, w4, w5] ++ rest ++ [0x78#8]) →
    (∀ ch ∈ [w0, w1, w2, w3, w4, w5] ++ rest, inAlpha ch = true) →
    Codec.windowError w0 w1 w2 w3 w4 w5 (Codec.csOf bs csInit) = some e →
      ∃ t, exec .decode s = .next t ∧ t.err = e.code ∧ t.errPos = 0 ∧ t.outLen = 0

/-- Phase 5 (43_decoder.md R114 to R117): after any number of good windows and with fewer than 6
characters left, a remainder that is not 3 characters is `Corrupted`; a final group with a failing check
gives the error of its first failing check, in the order of R117; otherwise the bytes of the windows are
decoded, followed by the byte of the final data triple unless the final group is the parity tuple. -/
def Obligations.DecodeFinalGroupDecidesTheOutcome : Prop :=
  ∀ (s : State) (bs tail : List Byte), s.Ready → bs.length % 2 = 0 → tail.length < 6 →
    s.input = 0x78#8 :: (Codec.windows bs csInit ++ tail ++ [0x78#8]) →
    (∀ ch ∈ tail, inAlpha ch = true) →
      ∃ t, exec .decode s = .next t ∧
        (tail.length ≠ 3 → t.err = 3 ∧ t.errPos = 0 ∧ t.outLen = 0) ∧
        ∀ t0 t1 t2, tail = [t0, t1, t2] →
          (∀ e, Codec.finalError t0 t1 t2 (Codec.csOf bs csInit) = some e →
            t.err = e.code ∧ t.errPos = 0 ∧ t.outLen = 0) ∧
          (Codec.finalError t0 t1 t2 (Codec.csOf bs csInit) = none → t.err = 0 ∧ t.errPos = 0 ∧
            (t1 = 0x78#8 → t.output = bs.map some) ∧
            (t1 ≠ 0x78#8 → ∃ v, tripleChars v (Codec.csOf bs csInit) = [t0, t1, t2] ∧
              t.output = (bs ++ [v]).map some))

/-- DECODE refines the source's function on lists: outcome, position and bytes are those of
`decode(string)` with no special case for `xexax`, so the shortcut changes no outcome
(43_decoder.md R101, R102). -/
def Obligations.DecodeRefinesTheListDecoder : Prop :=
  ∀ s : State, s.Ready → ∃ t, exec .decode s = .next t ∧
    (∀ bs, Codec.decodeString s.input = .ok bs → t.err = 0 ∧ t.errPos = 0 ∧
      t.outLen = bs.length ∧ t.output = bs.map some) ∧
    ∀ e, Codec.decodeString s.input = .error e → t.err = e.code ∧ t.errPos = e.pos ∧ t.outLen = 0

/-- The frame of DECODE: configuration, every byte of IN, IN_LEN and what stands outside the block are
unchanged, the block is idle; the bytes of OUT it stores to are `OUT[0 .. OUT_LEN-1]` (10_state.md R12,
R13). The model's own: every other byte of OUT, which R13 leaves unspecified, is without a value
afterwards (log entry 4); a byte of IN at or above IN_LEN is kept (log entries 3, 17); and the fields
`epoch`, `host` and `seen` (log entries 3, 5, 7). -/
def Obligations.DecodeFrame : Prop :=
  ∀ s t : State, exec .decode s = .next t →
    CommandFrame s t ∧ (∀ i, t.memRead i = s.memRead i) ∧
      (∀ j, j < t.outLen → (t.outAt j).isSome = true) ∧ ∀ j, t.outLen ≤ j → t.outAt j = none

/-- The length of a successful DECODE's output (43_decoder.md R119, derived there): the string's length
is 5 modulo 6, and the output has `2 * ((n - 5) / 6)` bytes, one more when the final group is a data
triple; so a string of any other length is never decoded (R116). -/
def Obligations.DecodeOutputLength : Prop :=
  ∀ s t : State, exec .decode s = .next t → t.err = 0 →
    s.inLen % 6 = 5 ∧
      (s.memRead (s.inLen - 3) = 0x78#8 → t.outLen = 2 * ((s.inLen - 5) / 6)) ∧
      (s.memRead (s.inLen - 3) ≠ 0x78#8 → t.outLen = 2 * ((s.inLen - 5) / 6) + 1)

/-- Replacing any window's `-` by another character of the alphabet in a string DECODE accepts gives
`Corrupted` (43_decoder.md R123 (a), derived there; R111). -/
def Obligations.TamperedSeparatorIsCorrupted : Prop :=
  ∀ (s t u : State) (j : Nat), exec .decode s = .next t → t.err = 0 → j < (s.inLen - 5) / 6 →
    u.Ready → u.inLen = s.inLen → (∀ i, i < s.inLen → i ≠ 5 + 6 * j → u.memRead i = s.memRead i) →
    u.memRead (5 + 6 * j) ≠ 0x2D#8 → inAlpha (u.memRead (5 + 6 * j)) = true →
      ∃ v, exec .decode u = .next v ∧ v.err = 3 ∧ v.errPos = 0 ∧ v.outLen = 0

/-! ### Both commands -/

/-- "For all byte sequences `b`, `decode(encode(b)) == b`" (43_decoder.md R121), on the machine: when IN
of a second state holds the string an ENCODE wrote (so the string fits its IN), DECODE there succeeds
and writes the bytes that were encoded. -/
def Obligations.DecodeOfEncodeIsTheInput : Prop :=
  ∀ s t u : State, exec .encode s = .next t → u.Ready → u.inLen = t.outLen →
    (∀ j, j < t.outLen → t.outAt j = some (u.memRead j)) →
      ∃ v, exec .decode u = .next v ∧ v.err = 0 ∧ v.errPos = 0 ∧ v.outLen = s.inLen ∧
        ∀ i, i < s.inLen → v.outAt i = some (s.memRead i)

/-- "One spelling per byte sequence" (43_decoder.md R122, derived there): when DECODE succeeds, ENCODE
of the bytes it wrote writes exactly the string that was decoded. -/
def Obligations.EncodeOfDecodeIsTheString : Prop :=
  ∀ s t u : State, exec .decode s = .next t → t.err = 0 → u.Ready → u.inLen = t.outLen →
    (∀ j, j < t.outLen → t.outAt j = some (u.memRead j)) →
      ∃ v, exec .encode u = .next v ∧ v.outLen = s.inLen ∧
        ∀ i, i < s.inLen → v.outAt i = some (s.memRead i)

/-- "No carry-over between commands" (10_state.md R23): what a command leaves for the host to observe
depends on `CMD`, `IN_LEN` and `IN[0 .. IN_LEN-1]` alone, not on `CS`, OUT, `OUT_LEN`, `ERR`, `ERRPOS`,
the cursors or any earlier command. -/
def Obligations.OutcomeDependsOnTheInputAlone : Prop :=
  ∀ (i : Instr) (s s' : State), s.Ready → s'.Ready → s.inLen = s'.inLen →
    (∀ k, k < s.inLen → s.memRead k = s'.memRead k) →
      ∃ t t', exec i s = .next t ∧ exec i s' = .next t' ∧ t.observe = t'.observe

/-- "calling `decode` twice on the same malformed input yields the same error every time" (10_state.md
R23, 60_exceptions.md R135); the same of ENCODE, and a command of the other kind in between changes
nothing. -/
def Obligations.CommandsRepeatIdentically : Prop :=
  ∀ (i i' : Instr) (s t u : State), exec i s = .next t → exec i' t = .next u →
    ∃ v, exec i u = .next v ∧ v.observe = t.observe

/-! ### The host -/

/-- The host's load (70_reset_and_hazards.md R158 steps 1 and 2): writing the bytes of a sequence that
fits and then its length makes it the input, and nothing the host can observe of the last command
changes. -/
def Obligations.HostLoadPlacesTheInput : Prop :=
  ∀ (s : State) (bs : List Byte) (rest : List HostAction), s.Inv → bs.length ≤ s.params.inMax →
    s.host = loadBytes 0 bs ++ .access (.writeInLen bs.length) :: rest →
      ∃ t, Host.Core.run core (bs.length + 1) s = .next t ∧ t.input = bs ∧ t.host = rest ∧
        t.observe = s.observe ∧ t.cs = s.cs ∧ t.seen = s.seen

/-- `encode(bytes) -> string` as the host calls it (30_encoding.md R60): after the load and the write of
0 to `CMD` the host finds the encoded string in OUT and 0 in `ERR`, from every state between commands. -/
def Obligations.EncodeCallGivesTheString : Prop :=
  ∀ (s : State) (bs : List Byte) (rest : List HostAction), s.Inv → bs.length ≤ s.params.inMax →
    s.host = callScript .encode bs ++ rest →
      ∃ t, Host.Core.run core (bs.length + 2) s = .next t ∧ t.host = rest ∧ t.err = 0 ∧
        t.output = (Codec.encodeString bs).map some

/-- `decode(string) -> bytes | Error` as the host calls it (30_encoding.md R60): after the load and the
write of 1 to `CMD` the host finds in `ERR` 0 and in OUT the bytes, or the error with `OUT_LEN = 0` and
its position in `ERRPOS`. -/
def Obligations.DecodeCallGivesTheBytesOrTheError : Prop :=
  ∀ (s : State) (str : List Byte) (rest : List HostAction), s.Inv → str.length ≤ s.params.inMax →
    s.host = callScript .decode str ++ rest →
      ∃ t, Host.Core.run core (str.length + 2) s = .next t ∧ t.host = rest ∧
        (∀ bs, Codec.decodeString str = .ok bs → t.err = 0 ∧ t.output = bs.map some) ∧
        ∀ e, Codec.decodeString str = .error e → t.err = e.code ∧ t.errPos = e.pos ∧ t.outLen = 0

/-- A host write of `IN[i]` below `IN_MAX` changes that byte and nothing else (20_memory.md R30, R34;
10_state.md R25). At or above `IN_LEN` that the byte reads as written, and that the others are kept, is
the model's choice (log entries 3, 17). -/
def Obligations.HostWriteChangesOneByteOfIn : Prop :=
  ∀ (s : State) (i : Nat) (b : Byte) (rest : List HostAction), s.params.wf → s.phase = .idle →
    s.host = .access (.writeIn i b) :: rest → i < s.params.inMax →
      ∃ t, step s = .next t ∧ t.memRead i = b ∧ (∀ k, k ≠ i → t.memRead k = s.memRead k) ∧
        t = { s with host := rest, inBuf := t.inBuf }

/-- The host's reads (10_state.md R25): between commands each gives what the register or byte holds, a
byte of IN below `IN_MAX`, a byte of OUT below `OUT_LEN`, and "has no side effect" (20_memory.md R34):
only the host's own record of replies changes (log entry 7). Which value a byte of IN at or above `IN_LEN`
holds is the model's choice (log entries 3, 17). -/
def Obligations.HostReadsGiveTheRegisters : Prop :=
  ∀ (s : State) (a : Access) (rest : List HostAction), s.Inv → s.host = .access a :: rest →
    (∀ i, a = .readIn i → i < s.params.inMax →
      step s = .next { s with host := rest, seen := s.seen ++ [.inByte i (s.memRead i)] }) ∧
    (a = .readInLen → step s = .next { s with host := rest, seen := s.seen ++ [.inLen s.inLen] }) ∧
    (∀ j, a = .readOut j → j < s.outLen → ∃ b, s.outAt j = some b ∧
      step s = .next { s with host := rest, seen := s.seen ++ [.outByte j b] }) ∧
    (a = .readOutLen → step s = .next { s with host := rest, seen := s.seen ++ [.outLen s.outLen] }) ∧
    (a = .readErr → step s = .next { s with host := rest, seen := s.seen ++ [.err s.err] }) ∧
    (a = .readErrPos → step s = .next { s with host := rest, seen := s.seen ++ [.errPos s.errPos] })

/-- What a model refuses (60_exceptions.md R138): a configuration that breaks 00_scope.md R5; a host write
of `IN_LEN > IN_MAX`; a host access while a command runs; a host read of OUT at or above `OUT_LEN` and
below `OUT_MAX` (that the model refuses it: log entry 4; from `OUT_MAX` on the index does not exist, log
entry 10). The model's own: that a broken configuration is refused in a step and in a command, and a
command from a state with `IN_LEN > IN_MAX` too (log entry 11); and that in the running phase every
action but a reset is refused (log entry 15). -/
def Obligations.MachineConditionsAreRefused : Prop :=
  (∀ (s : State) (i : Instr), ¬ s.params.wf →
      step s = .refused .badConfiguration ∧ exec i s = .refused .badConfiguration) ∧
    (∀ (s : State) (i : Instr), s.params.wf → s.params.inMax < s.inLen →
      exec i s = .refused .inLenAboveCapacity) ∧
    (∀ (s : State) (n : Nat) (rest : List HostAction), s.params.wf → s.phase = .idle →
      s.host = .access (.writeInLen n) :: rest → s.params.inMax < n →
        step s = .refused .inLenAboveCapacity) ∧
    (∀ (s : State) (a : HostAction) (rest : List HostAction), s.params.wf → s.phase = .running →
      s.host = a :: rest → a ≠ .reset → step s = .refused .hostWhileRunning) ∧
    ∀ (s : State) (j : Nat) (rest : List HostAction), s.params.wf → s.phase = .idle →
      s.host = .access (.readOut j) :: rest → s.outLen ≤ j → j < s.params.outMax →
        step s = .refused .outReadAboveLength

/-- A host access to an index the spec says does not exist stops with a fault (20_memory.md R30: the
index ranges of IN and OUT; that a model faults there is log entry 10). -/
def Obligations.IndicesThatDoNotExistFault : Prop :=
  ∀ (s : State) (i : Nat) (b : Byte) (rest : List HostAction), s.params.wf → s.phase = .idle →
    (s.params.inMax ≤ i →
      (s.host = .access (.writeIn i b) :: rest → step s = .fault .noSuchInByte) ∧
      (s.host = .access (.readIn i) :: rest → step s = .fault .noSuchInByte)) ∧
    (s.params.outMax ≤ i → s.host = .access (.readOut i) :: rest → step s = .fault .noSuchOutByte)

/-- Access rights (10_state.md R25), over every step: IN and IN_LEN change only by a host load or a
reset, never by a command; OUT, OUT_LEN, ERR, ERRPOS, CS and the cursors change only by a command or a
reset, never by a host access; no step changes the configuration. -/
def Obligations.EachAgentWritesOnlyItsOwn : Prop :=
  ∀ s t : State, step s = .next t →
    t.params = s.params ∧
      ((t.inBuf ≠ s.inBuf ∨ t.inLen ≠ s.inLen) →
        ∃ rest, (∃ i b, s.host = .access (.writeIn i b) :: rest) ∨
          (∃ n, s.host = .access (.writeInLen n) :: rest) ∨ s.host = .reset :: rest) ∧
      ((t.outBuf ≠ s.outBuf ∨ t.outLen ≠ s.outLen ∨ t.err ≠ s.err ∨ t.errPos ≠ s.errPos ∨
          t.cs ≠ s.cs ∨ t.ip ≠ s.ip ∨ t.op ≠ s.op) →
        ∃ rest, (∃ op, s.host = .writeCmd op :: rest) ∨ s.host = .reset :: rest)
end

