-- ==== Sys2Proof/Laws/Alphabet.lean ====
section
/-! SUPPORT. The laws of the alphabet lookups and of the string units: each inverse lookup undoes its
ROM, and each check of the decoder passes exactly the characters the encoder writes. -/

namespace Sys2Proof.Machine

/-! ### Inverse lookups -/

@[simp] theorem vidx?_vowelRom : ∀ i : Fin 6, vidx? (vowelRom i) = some i := by decide

@[simp] theorem cidx?_dataConsRom : ∀ i : Fin 16, cidx? (dataConsRom i) = some i := by decide

theorem vidx?_eq_some {ch : Byte} {i : Fin 6} (h : vidx? ch = some i) : ch = vowelRom i := by
  exact (by simpa using List.find?_some h : _ = ch).symm

theorem cidx?_eq_some {ch : Byte} {i : Fin 16} (h : cidx? ch = some i) : ch = dataConsRom i := by
  exact (by simpa using List.find?_some h : _ = ch).symm

/-! ### Classes of the characters the encoder writes -/

@[simp] theorem charClass_vowelRom : ∀ i : Fin 6, charClass (vowelRom i) = .vowel := by decide

@[simp] theorem charClass_dataConsRom : ∀ i : Fin 16, charClass (dataConsRom i) = .dataCons := by
  decide

@[simp] theorem charClass_sentinelChar : charClass sentinelChar = .sentinel := by decide

@[simp] theorem charClass_sepChar : charClass sepChar = .sep := by decide

theorem charClass_eq_vowel {ch : Byte} (h : charClass ch = .vowel) : ∃ i, ch = vowelRom i := by
  simp only [charClass] at h
  split_ifs at h with h1
  obtain ⟨i, hi⟩ := Option.isSome_iff_exists.mp h1
  exact ⟨i, vidx?_eq_some hi⟩

theorem charClass_eq_dataCons {ch : Byte} (h : charClass ch = .dataCons) :
    ∃ i, ch = dataConsRom i := by
  simp only [charClass] at h
  split_ifs at h with h1 h2
  obtain ⟨i, hi⟩ := Option.isSome_iff_exists.mp h2
  exact ⟨i, cidx?_eq_some hi⟩

theorem charClass_eq_sentinel {ch : Byte} (h : charClass ch = .sentinel) : ch = sentinelChar := by
  simp only [charClass] at h
  split_ifs at h with h1 h2 h3
  exact h3

theorem charClass_eq_sep {ch : Byte} (h : charClass ch = .sep) : ch = sepChar := by
  simp only [charClass] at h
  split_ifs at h with h1 h2 h3 h4
  exact h4

/-! ### What each check of the decoder answers -/

theorem needVowel_ok {ch : Byte} {i : Fin 6} : needVowel ch = .ok i ↔ ch = vowelRom i := by
  constructor
  · intro h
    simp only [needVowel] at h
    split at h
    · cases h
      exact vidx?_eq_some ‹_›
    · cases h
  · rintro rfl
    simp [needVowel]

theorem needVowel_error {ch : Byte} {e : DecodeError} (h : needVowel ch = .error e) :
    e = .expectedVowel ∧ charClass ch ≠ .vowel := by
  simp only [needVowel] at h
  split at h
  · cases h
  · rename_i hn
    cases h
    refine ⟨rfl, fun hc => ?_⟩
    obtain ⟨i, rfl⟩ := charClass_eq_vowel hc
    simp at hn

theorem needDataCons_ok {ch : Byte} {i : Fin 16} : needDataCons ch = .ok i ↔ ch = dataConsRom i := by
  constructor
  · intro h
    simp only [needDataCons] at h
    split_ifs at h
    split at h
    · cases h
      exact cidx?_eq_some ‹_›
    · cases h
  · rintro rfl
    simp [needDataCons]

theorem needDataCons_error {ch : Byte} {e : DecodeError} (h : needDataCons ch = .error e) :
    (charClass ch = .sentinel ∧ e = .corrupted) ∨
      (charClass ch ≠ .sentinel ∧ charClass ch ≠ .dataCons ∧ e = .expectedConsonant) := by
  simp only [needDataCons] at h
  split_ifs at h with hs
  · cases h
    exact Or.inl ⟨hs, rfl⟩
  · split at h
    · cases h
    · rename_i hn
      cases h
      refine Or.inr ⟨hs, fun hc => ?_, rfl⟩
      obtain ⟨i, rfl⟩ := charClass_eq_dataCons hc
      simp at hn

theorem needSep_ok {ch : Byte} {u : Unit} : needSep ch = .ok u ↔ ch = sepChar := by
  simp only [needSep]
  split_ifs with h <;> simp [h]

theorem needSep_error {ch : Byte} {e : DecodeError} (h : needSep ch = .error e) :
    e = .corrupted ∧ ch ≠ sepChar := by
  simp only [needSep] at h
  split_ifs at h with hs
  cases h
  exact ⟨rfl, hs⟩

theorem matchParity_ok {a c : Fin 6} {cs : Fin 36} {u : Unit} :
    matchParity a c cs = .ok u ↔ a = cslo cs ∧ c = cshi cs := by
  simp only [matchParity]
  split_ifs with h <;> simp [h]

/-! ### Bytes and their fields -/

theorem bits_lt (v : Byte) (hi lo : Nat) : bits v hi lo < 2 ^ (hi - lo + 1) :=
  Nat.mod_lt _ (by positivity)

/-- A pair's nibbles give its byte back (30_encoding.md R56). -/
@[simp] theorem joinPair_pairD_pairE : ∀ r : Byte, joinPair (pairD r) (pairE r) = r := by
  decide +kernel

@[simp] theorem pairD_joinPair : ∀ d e : Fin 16, pairD (joinPair d e) = d := by decide +kernel

@[simp] theorem pairE_joinPair : ∀ d e : Fin 16, pairE (joinPair d e) = e := by decide +kernel

/-- A triple's fields give its byte back (30_encoding.md R56). -/
theorem joinTriple_bits : ∀ v : Byte, joinTriple (bits v 7 6) (tripleB v) (bits v 1 0) = v := by
  decide +kernel

theorem bits_joinTriple : ∀ (hi : Fin 4) (mid : Fin 16) (lo : Fin 4),
    bits (joinTriple hi mid lo) 7 6 = hi ∧ tripleB (joinTriple hi mid lo) = mid ∧
      bits (joinTriple hi mid lo) 1 0 = lo := by
  decide +kernel

end Sys2Proof.Machine
end

