-- ==== Sys2Proof/Laws/Memory.lean ====
section
/-! SUPPORT. The laws of memory: reads after writes, the canonical form and the bound that writes keep,
and OUT filled from index 0 on. -/

namespace Sys2Proof.Machine

variable {m : Memory}

@[simp] theorem Memory.read?_nil (i : Nat) : Memory.read? [] i = none := rfl

@[simp] theorem Memory.read?_write_same (m : Memory) (i : Nat) (v : Byte) :
    (m.write i v).read? i = some v := by
  induction m with
  | nil => simp [Memory.write, Memory.read?]
  | cons c m ih =>
    obtain ⟨a, b⟩ := c
    simp only [Memory.write]
    split_ifs with h1 h2
    · simp [Memory.read?]
    · simp [Memory.read?]
    · rw [Memory.read?, if_neg (fun h => h2 h.symm)]
      exact ih

theorem Memory.read?_write_other (m : Memory) {i j : Nat} (v : Byte) (h : j ≠ i) :
    (m.write i v).read? j = m.read? j := by
  induction m with
  | nil => simp [Memory.write, Memory.read?, h.symm]
  | cons c m ih =>
    obtain ⟨a, b⟩ := c
    simp only [Memory.write]
    split_ifs with h1 h2
    · simp [Memory.read?, h.symm]
    · subst h2
      simp [Memory.read?, h.symm]
    · simp only [Memory.read?, ih]

/-- The indices listed after a write: the old ones and the one written. -/
theorem Memory.mem_write {c : Host.Cell} {i : Nat} {v : Byte} (h : c ∈ m.write i v) :
    c = (i, v) ∨ c ∈ m := by
  induction m with
  | nil => exact Or.inl (by simpa [Memory.write] using h)
  | cons d m ih =>
    obtain ⟨a, b⟩ := d
    simp only [Memory.write] at h
    split_ifs at h with h1 h2
    · simpa using h
    · rcases List.mem_cons.mp h with h | h
      · exact Or.inl h
      · exact Or.inr (List.mem_cons_of_mem _ h)
    · rcases List.mem_cons.mp h with h | h
      · exact Or.inr (h ▸ List.mem_cons_self)
      · exact (ih h).imp id (List.mem_cons_of_mem _)

/-- No byte is what an unlisted index reads as. -/
theorem Memory.ne_unlisted (b : Byte) : some b ≠ Memory.unlisted := by simp [Memory.unlisted]

theorem Memory.nil_wf : Memory.wf [] := by simp [Memory.wf]

/-- A write keeps the canonical form. -/
theorem Memory.write_wf (h : m.wf) (i : Nat) (v : Byte) : (m.write i v).wf := by
  refine ⟨?_, fun c _ => Memory.ne_unlisted c.2⟩
  have hs := h.1
  clear h
  induction m with
  | nil => simp [Memory.write]
  | cons c m ih =>
    obtain ⟨a, b⟩ := c
    rw [List.map_cons, List.pairwise_cons] at hs
    simp only [Memory.write]
    split_ifs with h1 h2
    · simp only [List.map_cons, List.pairwise_cons, List.mem_cons]
      refine ⟨?_, hs⟩
      rintro x (rfl | hx)
      · exact h1
      · exact h1.trans (hs.1 x hx)
    · subst h2
      simpa using hs
    · rw [List.map_cons, List.pairwise_cons]
      refine ⟨fun x hx => ?_, ih hs.2⟩
      obtain ⟨c, hc, rfl⟩ := List.mem_map.mp hx
      rcases Memory.mem_write hc with rfl | hc
      · show a < i
        omega
      · exact hs.1 _ (List.mem_map_of_mem hc)

/-- A write below the bound keeps every listed index below it. -/
theorem Memory.write_below {bound i : Nat} (h : m.below bound) (hi : i < bound) (v : Byte) :
    (m.write i v).below bound := by
  intro c hc
  rcases Memory.mem_write hc with rfl | hc
  · exact hi
  · exact h c hc

/-! ### A buffer filled from an index on -/

/-- The buffer that holds a byte sequence from index `i` on and nothing else. -/
def Memory.ofBytes : Nat → List Byte → Memory
  | _, [] => []
  | i, b :: bs => (i, b) :: Memory.ofBytes (i + 1) bs

theorem Memory.write_ofBytes_end (i : Nat) (bs : List Byte) (v : Byte) :
    (Memory.ofBytes i bs).write (i + bs.length) v = Memory.ofBytes i (bs ++ [v]) := by
  induction bs generalizing i with
  | nil => rfl
  | cons b bs ih =>
    have h := ih (i + 1)
    rw [show i + 1 + bs.length = i + (b :: bs).length by simp only [List.length_cons]; omega] at h
    simp only [Memory.ofBytes, List.cons_append, Memory.write, List.length_cons]
    rw [if_neg (by omega), if_neg (by omega)]
    exact congrArg _ h

theorem Memory.read?_ofBytes (i : Nat) (bs : List Byte) (j : Nat) :
    (Memory.ofBytes i bs).read? (i + j) = bs[j]? := by
  induction bs generalizing i j with
  | nil => rfl
  | cons b bs ih =>
    cases j with
    | zero => simp [Memory.ofBytes, Memory.read?]
    | succ j =>
      have h := ih (i + 1) j
      rw [show i + 1 + j = i + (j + 1) by omega] at h
      simp only [Memory.ofBytes, Memory.read?, List.getElem?_cons_succ]
      rw [if_neg (by omega), h]

theorem Memory.ofBytes_indices (i : Nat) (bs : List Byte) :
    (Memory.ofBytes i bs).map Prod.fst = List.range' i bs.length := by
  induction bs generalizing i with
  | nil => rfl
  | cons b bs ih => simp [Memory.ofBytes, List.range', ih]

theorem Memory.ofBytes_wf (i : Nat) (bs : List Byte) : (Memory.ofBytes i bs).wf :=
  ⟨by rw [Memory.ofBytes_indices]; exact List.pairwise_lt_range', fun c _ => Memory.ne_unlisted c.2⟩

end Sys2Proof.Machine
end

