-- ==== Sys2Proof/Laws/State.lean ====
section
/-! SUPPORT. What each named update of the state does to each field, one lemma per field per update, so
that no proof unfolds a record update. -/

namespace Sys2Proof.Machine

variable (s : State)

/-! ### `memWrite` -/

@[simp] theorem State.memWrite_params (j : Nat) (v : Byte) :
    (s.memWrite j v).params = s.params := rfl
@[simp] theorem State.memWrite_inBuf (j : Nat) (v : Byte) : (s.memWrite j v).inBuf = s.inBuf := rfl
@[simp] theorem State.memWrite_inLen (j : Nat) (v : Byte) : (s.memWrite j v).inLen = s.inLen := rfl
@[simp] theorem State.memWrite_outBuf (j : Nat) (v : Byte) :
    (s.memWrite j v).outBuf = s.outBuf.write j v := rfl
@[simp] theorem State.memWrite_outLen (j : Nat) (v : Byte) :
    (s.memWrite j v).outLen = s.outLen := rfl
@[simp] theorem State.memWrite_err (j : Nat) (v : Byte) : (s.memWrite j v).err = s.err := rfl
@[simp] theorem State.memWrite_errPos (j : Nat) (v : Byte) :
    (s.memWrite j v).errPos = s.errPos := rfl
@[simp] theorem State.memWrite_cs (j : Nat) (v : Byte) : (s.memWrite j v).cs = s.cs := rfl
@[simp] theorem State.memWrite_ip (j : Nat) (v : Byte) : (s.memWrite j v).ip = s.ip := rfl
@[simp] theorem State.memWrite_op (j : Nat) (v : Byte) : (s.memWrite j v).op = s.op := rfl
@[simp] theorem State.memWrite_phase (j : Nat) (v : Byte) : (s.memWrite j v).phase = s.phase := rfl
@[simp] theorem State.memWrite_epoch (j : Nat) (v : Byte) : (s.memWrite j v).epoch = s.epoch := rfl
@[simp] theorem State.memWrite_host (j : Nat) (v : Byte) : (s.memWrite j v).host = s.host := rfl
@[simp] theorem State.memWrite_seen (j : Nat) (v : Byte) : (s.memWrite j v).seen = s.seen := rfl

/-! ### `emit` -/

@[simp] theorem State.emit_params (ch : Byte) : (s.emit ch).params = s.params := rfl
@[simp] theorem State.emit_inBuf (ch : Byte) : (s.emit ch).inBuf = s.inBuf := rfl
@[simp] theorem State.emit_inLen (ch : Byte) : (s.emit ch).inLen = s.inLen := rfl
@[simp] theorem State.emit_outBuf (ch : Byte) : (s.emit ch).outBuf = s.outBuf.write s.op ch := rfl
@[simp] theorem State.emit_outLen (ch : Byte) : (s.emit ch).outLen = s.outLen := rfl
@[simp] theorem State.emit_err (ch : Byte) : (s.emit ch).err = s.err := rfl
@[simp] theorem State.emit_errPos (ch : Byte) : (s.emit ch).errPos = s.errPos := rfl
@[simp] theorem State.emit_cs (ch : Byte) : (s.emit ch).cs = s.cs := rfl
@[simp] theorem State.emit_ip (ch : Byte) : (s.emit ch).ip = s.ip := rfl
@[simp] theorem State.emit_op (ch : Byte) : (s.emit ch).op = s.op + 1 := rfl
@[simp] theorem State.emit_phase (ch : Byte) : (s.emit ch).phase = s.phase := rfl
@[simp] theorem State.emit_epoch (ch : Byte) : (s.emit ch).epoch = s.epoch := rfl
@[simp] theorem State.emit_host (ch : Byte) : (s.emit ch).host = s.host := rfl
@[simp] theorem State.emit_seen (ch : Byte) : (s.emit ch).seen = s.seen := rfl

/-! ### `advance` -/

@[simp] theorem State.advance_params (k : Nat) : (s.advance k).params = s.params := rfl
@[simp] theorem State.advance_inBuf (k : Nat) : (s.advance k).inBuf = s.inBuf := rfl
@[simp] theorem State.advance_inLen (k : Nat) : (s.advance k).inLen = s.inLen := rfl
@[simp] theorem State.advance_outBuf (k : Nat) : (s.advance k).outBuf = s.outBuf := rfl
@[simp] theorem State.advance_outLen (k : Nat) : (s.advance k).outLen = s.outLen := rfl
@[simp] theorem State.advance_err (k : Nat) : (s.advance k).err = s.err := rfl
@[simp] theorem State.advance_errPos (k : Nat) : (s.advance k).errPos = s.errPos := rfl
@[simp] theorem State.advance_cs (k : Nat) : (s.advance k).cs = s.cs := rfl
@[simp] theorem State.advance_ip (k : Nat) : (s.advance k).ip = s.ip + k := rfl
@[simp] theorem State.advance_op (k : Nat) : (s.advance k).op = s.op := rfl
@[simp] theorem State.advance_phase (k : Nat) : (s.advance k).phase = s.phase := rfl
@[simp] theorem State.advance_epoch (k : Nat) : (s.advance k).epoch = s.epoch := rfl
@[simp] theorem State.advance_host (k : Nat) : (s.advance k).host = s.host := rfl
@[simp] theorem State.advance_seen (k : Nat) : (s.advance k).seen = s.seen := rfl

/-! ### `initCs` -/

@[simp] theorem State.initCs_params : (s.initCs).params = s.params := rfl
@[simp] theorem State.initCs_inBuf : (s.initCs).inBuf = s.inBuf := rfl
@[simp] theorem State.initCs_inLen : (s.initCs).inLen = s.inLen := rfl
@[simp] theorem State.initCs_outBuf : (s.initCs).outBuf = s.outBuf := rfl
@[simp] theorem State.initCs_outLen : (s.initCs).outLen = s.outLen := rfl
@[simp] theorem State.initCs_err : (s.initCs).err = s.err := rfl
@[simp] theorem State.initCs_errPos : (s.initCs).errPos = s.errPos := rfl
@[simp] theorem State.initCs_cs : (s.initCs).cs = csInit := rfl
@[simp] theorem State.initCs_ip : (s.initCs).ip = s.ip := rfl
@[simp] theorem State.initCs_op : (s.initCs).op = s.op := rfl
@[simp] theorem State.initCs_phase : (s.initCs).phase = s.phase := rfl
@[simp] theorem State.initCs_epoch : (s.initCs).epoch = s.epoch := rfl
@[simp] theorem State.initCs_host : (s.initCs).host = s.host := rfl
@[simp] theorem State.initCs_seen : (s.initCs).seen = s.seen := rfl

/-! ### `stepCs` -/

@[simp] theorem State.stepCs_params (l r : Byte) : (s.stepCs l r).params = s.params := rfl
@[simp] theorem State.stepCs_inBuf (l r : Byte) : (s.stepCs l r).inBuf = s.inBuf := rfl
@[simp] theorem State.stepCs_inLen (l r : Byte) : (s.stepCs l r).inLen = s.inLen := rfl
@[simp] theorem State.stepCs_outBuf (l r : Byte) : (s.stepCs l r).outBuf = s.outBuf := rfl
@[simp] theorem State.stepCs_outLen (l r : Byte) : (s.stepCs l r).outLen = s.outLen := rfl
@[simp] theorem State.stepCs_err (l r : Byte) : (s.stepCs l r).err = s.err := rfl
@[simp] theorem State.stepCs_errPos (l r : Byte) : (s.stepCs l r).errPos = s.errPos := rfl
@[simp] theorem State.stepCs_cs (l r : Byte) : (s.stepCs l r).cs = csnext s.cs l r := rfl
@[simp] theorem State.stepCs_ip (l r : Byte) : (s.stepCs l r).ip = s.ip := rfl
@[simp] theorem State.stepCs_op (l r : Byte) : (s.stepCs l r).op = s.op := rfl
@[simp] theorem State.stepCs_phase (l r : Byte) : (s.stepCs l r).phase = s.phase := rfl
@[simp] theorem State.stepCs_epoch (l r : Byte) : (s.stepCs l r).epoch = s.epoch := rfl
@[simp] theorem State.stepCs_host (l r : Byte) : (s.stepCs l r).host = s.host := rfl
@[simp] theorem State.stepCs_seen (l r : Byte) : (s.stepCs l r).seen = s.seen := rfl

/-! ### `start` -/

@[simp] theorem State.start_params : (s.start).params = s.params := rfl
@[simp] theorem State.start_inBuf : (s.start).inBuf = s.inBuf := rfl
@[simp] theorem State.start_inLen : (s.start).inLen = s.inLen := rfl
@[simp] theorem State.start_outBuf : (s.start).outBuf = [] := rfl
@[simp] theorem State.start_outLen : (s.start).outLen = s.outLen := rfl
@[simp] theorem State.start_err : (s.start).err = s.err := rfl
@[simp] theorem State.start_errPos : (s.start).errPos = s.errPos := rfl
@[simp] theorem State.start_cs : (s.start).cs = s.cs := rfl
@[simp] theorem State.start_ip : (s.start).ip = 0 := rfl
@[simp] theorem State.start_op : (s.start).op = 0 := rfl
@[simp] theorem State.start_phase : (s.start).phase = .running := rfl
@[simp] theorem State.start_epoch : (s.start).epoch = s.epoch := rfl
@[simp] theorem State.start_host : (s.start).host = s.host := rfl
@[simp] theorem State.start_seen : (s.start).seen = s.seen := rfl

/-! ### `succeed` -/

@[simp] theorem State.succeed_params : (s.succeed).params = s.params := rfl
@[simp] theorem State.succeed_inBuf : (s.succeed).inBuf = s.inBuf := rfl
@[simp] theorem State.succeed_inLen : (s.succeed).inLen = s.inLen := rfl
@[simp] theorem State.succeed_outBuf : (s.succeed).outBuf = s.outBuf := rfl
@[simp] theorem State.succeed_outLen : (s.succeed).outLen = s.op := rfl
@[simp] theorem State.succeed_err : (s.succeed).err = okCode := rfl
@[simp] theorem State.succeed_errPos : (s.succeed).errPos = 0 := rfl
@[simp] theorem State.succeed_cs : (s.succeed).cs = s.cs := rfl
@[simp] theorem State.succeed_ip : (s.succeed).ip = s.ip := rfl
@[simp] theorem State.succeed_op : (s.succeed).op = s.op := rfl
@[simp] theorem State.succeed_phase : (s.succeed).phase = .idle := rfl
@[simp] theorem State.succeed_epoch : (s.succeed).epoch = s.epoch := rfl
@[simp] theorem State.succeed_host : (s.succeed).host = s.host := rfl
@[simp] theorem State.succeed_seen : (s.succeed).seen = s.seen := rfl

/-! ### `raiseError` -/

@[simp] theorem State.raiseError_params (e : DecodeError) :
    (s.raiseError e).params = s.params := rfl
@[simp] theorem State.raiseError_inBuf (e : DecodeError) : (s.raiseError e).inBuf = s.inBuf := rfl
@[simp] theorem State.raiseError_inLen (e : DecodeError) : (s.raiseError e).inLen = s.inLen := rfl
@[simp] theorem State.raiseError_outBuf (e : DecodeError) : (s.raiseError e).outBuf = [] := rfl
@[simp] theorem State.raiseError_outLen (e : DecodeError) : (s.raiseError e).outLen = 0 := rfl
@[simp] theorem State.raiseError_err (e : DecodeError) : (s.raiseError e).err = e.code := rfl
@[simp] theorem State.raiseError_errPos (e : DecodeError) : (s.raiseError e).errPos = e.pos := rfl
@[simp] theorem State.raiseError_cs (e : DecodeError) : (s.raiseError e).cs = s.cs := rfl
@[simp] theorem State.raiseError_ip (e : DecodeError) : (s.raiseError e).ip = s.ip := rfl
@[simp] theorem State.raiseError_op (e : DecodeError) : (s.raiseError e).op = s.op := rfl
@[simp] theorem State.raiseError_phase (e : DecodeError) : (s.raiseError e).phase = .idle := rfl
@[simp] theorem State.raiseError_epoch (e : DecodeError) : (s.raiseError e).epoch = s.epoch := rfl
@[simp] theorem State.raiseError_host (e : DecodeError) : (s.raiseError e).host = s.host := rfl
@[simp] theorem State.raiseError_seen (e : DecodeError) : (s.raiseError e).seen = s.seen := rfl

/-! ### `reply` -/

@[simp] theorem State.reply_params (r : HostReply) : (s.reply r).params = s.params := rfl
@[simp] theorem State.reply_inBuf (r : HostReply) : (s.reply r).inBuf = s.inBuf := rfl
@[simp] theorem State.reply_inLen (r : HostReply) : (s.reply r).inLen = s.inLen := rfl
@[simp] theorem State.reply_outBuf (r : HostReply) : (s.reply r).outBuf = s.outBuf := rfl
@[simp] theorem State.reply_outLen (r : HostReply) : (s.reply r).outLen = s.outLen := rfl
@[simp] theorem State.reply_err (r : HostReply) : (s.reply r).err = s.err := rfl
@[simp] theorem State.reply_errPos (r : HostReply) : (s.reply r).errPos = s.errPos := rfl
@[simp] theorem State.reply_cs (r : HostReply) : (s.reply r).cs = s.cs := rfl
@[simp] theorem State.reply_ip (r : HostReply) : (s.reply r).ip = s.ip := rfl
@[simp] theorem State.reply_op (r : HostReply) : (s.reply r).op = s.op := rfl
@[simp] theorem State.reply_phase (r : HostReply) : (s.reply r).phase = s.phase := rfl
@[simp] theorem State.reply_epoch (r : HostReply) : (s.reply r).epoch = s.epoch := rfl
@[simp] theorem State.reply_host (r : HostReply) : (s.reply r).host = s.host := rfl
@[simp] theorem State.reply_seen (r : HostReply) : (s.reply r).seen = s.seen ++ [r] := rfl

/-! ### `hostReset` -/

@[simp] theorem State.hostReset_params : (s.hostReset).params = s.params := rfl
@[simp] theorem State.hostReset_inBuf : (s.hostReset).inBuf = [] := rfl
@[simp] theorem State.hostReset_inLen : (s.hostReset).inLen = 0 := rfl
@[simp] theorem State.hostReset_outBuf : (s.hostReset).outBuf = [] := rfl
@[simp] theorem State.hostReset_outLen : (s.hostReset).outLen = 0 := rfl
@[simp] theorem State.hostReset_err : (s.hostReset).err = 0 := rfl
@[simp] theorem State.hostReset_errPos : (s.hostReset).errPos = 0 := rfl
@[simp] theorem State.hostReset_cs : (s.hostReset).cs = 1 := rfl
@[simp] theorem State.hostReset_ip : (s.hostReset).ip = 0 := rfl
@[simp] theorem State.hostReset_op : (s.hostReset).op = 0 := rfl
@[simp] theorem State.hostReset_phase : (s.hostReset).phase = .idle := rfl
@[simp] theorem State.hostReset_epoch : (s.hostReset).epoch = s.epoch + 1 := rfl
@[simp] theorem State.hostReset_host : (s.hostReset).host = s.host := rfl
@[simp] theorem State.hostReset_seen : (s.hostReset).seen = s.seen := rfl

/-! ### `emitAll`, and the units the encoder emits -/

@[simp] theorem State.emitAll_params (s : State) (chs : List Byte) :
    (s.emitAll chs).params = s.params := by
  induction chs generalizing s with
  | nil => rfl
  | cons ch chs ih => simp only [State.emitAll, ih, State.emit_params]
@[simp] theorem State.emitAll_inBuf (s : State) (chs : List Byte) :
    (s.emitAll chs).inBuf = s.inBuf := by
  induction chs generalizing s with
  | nil => rfl
  | cons ch chs ih => simp only [State.emitAll, ih, State.emit_inBuf]
@[simp] theorem State.emitAll_inLen (s : State) (chs : List Byte) :
    (s.emitAll chs).inLen = s.inLen := by
  induction chs generalizing s with
  | nil => rfl
  | cons ch chs ih => simp only [State.emitAll, ih, State.emit_inLen]
@[simp] theorem State.emitAll_outLen (s : State) (chs : List Byte) :
    (s.emitAll chs).outLen = s.outLen := by
  induction chs generalizing s with
  | nil => rfl
  | cons ch chs ih => simp only [State.emitAll, ih, State.emit_outLen]
@[simp] theorem State.emitAll_err (s : State) (chs : List Byte) :
    (s.emitAll chs).err = s.err := by
  induction chs generalizing s with
  | nil => rfl
  | cons ch chs ih => simp only [State.emitAll, ih, State.emit_err]
@[simp] theorem State.emitAll_errPos (s : State) (chs : List Byte) :
    (s.emitAll chs).errPos = s.errPos := by
  induction chs generalizing s with
  | nil => rfl
  | cons ch chs ih => simp only [State.emitAll, ih, State.emit_errPos]
@[simp] theorem State.emitAll_cs (s : State) (chs : List Byte) :
    (s.emitAll chs).cs = s.cs := by
  induction chs generalizing s with
  | nil => rfl
  | cons ch chs ih => simp only [State.emitAll, ih, State.emit_cs]
@[simp] theorem State.emitAll_ip (s : State) (chs : List Byte) :
    (s.emitAll chs).ip = s.ip := by
  induction chs generalizing s with
  | nil => rfl
  | cons ch chs ih => simp only [State.emitAll, ih, State.emit_ip]
@[simp] theorem State.emitAll_op (s : State) (chs : List Byte) :
    (s.emitAll chs).op = s.op + chs.length := by
  induction chs generalizing s with
  | nil => rfl
  | cons ch chs ih => simp only [State.emitAll, ih, State.emit_op, List.length_cons]; omega
@[simp] theorem State.emitAll_phase (s : State) (chs : List Byte) :
    (s.emitAll chs).phase = s.phase := by
  induction chs generalizing s with
  | nil => rfl
  | cons ch chs ih => simp only [State.emitAll, ih, State.emit_phase]
@[simp] theorem State.emitAll_epoch (s : State) (chs : List Byte) :
    (s.emitAll chs).epoch = s.epoch := by
  induction chs generalizing s with
  | nil => rfl
  | cons ch chs ih => simp only [State.emitAll, ih, State.emit_epoch]
@[simp] theorem State.emitAll_host (s : State) (chs : List Byte) :
    (s.emitAll chs).host = s.host := by
  induction chs generalizing s with
  | nil => rfl
  | cons ch chs ih => simp only [State.emitAll, ih, State.emit_host]
@[simp] theorem State.emitAll_seen (s : State) (chs : List Byte) :
    (s.emitAll chs).seen = s.seen := by
  induction chs generalizing s with
  | nil => rfl
  | cons ch chs ih => simp only [State.emitAll, ih, State.emit_seen]

theorem State.emitAll_append (s : State) (xs ys : List Byte) :
    s.emitAll (xs ++ ys) = (s.emitAll xs).emitAll ys := by
  induction xs generalizing s with
  | nil => rfl
  | cons x xs ih => exact ih (s.emit x)

/-! ### Reads of IN depend on IN and the epoch alone -/

theorem State.memRead_congr {s t : State} (hb : t.inBuf = s.inBuf) (he : t.epoch = s.epoch) (i : Nat) :
    t.memRead i = s.memRead i := by
  simp only [State.memRead, hb, he]

theorem State.chars_congr {s t : State} (hb : t.inBuf = s.inBuf) (he : t.epoch = s.epoch)
    (i k : Nat) : t.chars i k = s.chars i k := by
  induction k generalizing i with
  | zero => rfl
  | succ k ih => simp only [State.chars, ih, State.memRead_congr hb he]

@[simp] theorem State.chars_length (i k : Nat) : (s.chars i k).length = k := by
  induction k generalizing i with
  | zero => rfl
  | succ k ih => simp only [State.chars, List.length_cons, ih]

theorem State.chars_getElem? (i k j : Nat) (h : j < k) : (s.chars i k)[j]? = some (s.memRead (i + j)) := by
  induction k generalizing i j with
  | zero => omega
  | succ k ih =>
    cases j with
    | zero => rfl
    | succ j =>
      have := ih (i + 1) j (by omega)
      simpa only [State.chars, List.getElem?_cons_succ, Nat.add_right_comm, Nat.add_assoc] using this

theorem State.chars_add (i k m : Nat) : s.chars i (k + m) = s.chars i k ++ s.chars (i + k) m := by
  induction k generalizing i with
  | zero => simp only [Nat.zero_add, State.chars, List.nil_append, Nat.add_zero]
  | succ k ih =>
    rw [show k + 1 + m = k + m + 1 by omega, show i + (k + 1) = i + 1 + k by omega]
    simp only [State.chars, ih (i + 1), List.cons_append]

@[simp] theorem State.memWrite_memRead (j : Nat) (v : Byte) (i : Nat) : (s.memWrite j v).memRead i = s.memRead i := rfl
@[simp] theorem State.emit_memRead (ch : Byte) (i : Nat) : (s.emit ch).memRead i = s.memRead i := rfl
@[simp] theorem State.advance_memRead (k : Nat) (i : Nat) : (s.advance k).memRead i = s.memRead i := rfl
@[simp] theorem State.initCs_memRead (i : Nat) : (s.initCs).memRead i = s.memRead i := rfl
@[simp] theorem State.stepCs_memRead (l r : Byte) (i : Nat) : (s.stepCs l r).memRead i = s.memRead i := rfl
@[simp] theorem State.start_memRead (i : Nat) : (s.start).memRead i = s.memRead i := rfl
@[simp] theorem State.succeed_memRead (i : Nat) : (s.succeed).memRead i = s.memRead i := rfl
@[simp] theorem State.raiseError_memRead (e : DecodeError) (i : Nat) : (s.raiseError e).memRead i = s.memRead i := rfl
@[simp] theorem State.reply_memRead (r : HostReply) (i : Nat) : (s.reply r).memRead i = s.memRead i := rfl
@[simp] theorem State.start_chars (i k : Nat) : s.start.chars i k = s.chars i k :=
  State.chars_congr (s := s) (t := s.start) rfl rfl i k

@[simp] theorem State.initCs_chars (i k : Nat) : s.initCs.chars i k = s.chars i k :=
  State.chars_congr (s := s) (t := s.initCs) rfl rfl i k

@[simp] theorem State.emitAll_memRead (chs : List Byte) (i : Nat) :
    (s.emitAll chs).memRead i = s.memRead i :=
  State.memRead_congr (by simp) (by simp) i

end Sys2Proof.Machine
end

