-- ==== Sys2Proof/Laws/Ops.lean ====
section
/-! SUPPORT. For each shared operation one lemma that says what it can do. -/

namespace Sys2Proof.Machine

/-! ### OUT filled by emitting -/

/-- OUT holds exactly these bytes, from index 0 on, and the cursor stands after them. -/
structure State.Filled (s : State) (bs : List Byte) : Prop where
  outBuf : s.outBuf = Memory.ofBytes 0 bs
  op : s.op = bs.length

theorem State.start_filled (s : State) : s.start.Filled [] := ⟨rfl, rfl⟩

theorem State.Filled.emit {s : State} {bs : List Byte} (h : s.Filled bs) (ch : Byte) :
    (s.emit ch).Filled (bs ++ [ch]) := by
  constructor
  · have hw := Memory.write_ofBytes_end 0 bs ch
    rw [Nat.zero_add] at hw
    rw [State.emit_outBuf, h.outBuf, h.op, hw]
  · rw [State.emit_op, h.op, List.length_append, List.length_singleton]

theorem State.Filled.emitAll {s : State} {bs : List Byte} (h : s.Filled bs) (chs : List Byte) :
    (s.emitAll chs).Filled (bs ++ chs) := by
  induction chs generalizing s bs with
  | nil => simpa [State.emitAll] using h
  | cons ch chs ih => simpa [State.emitAll] using ih (h.emit ch)

/-- `Filled` looks at OUT and the output cursor alone. -/
theorem State.Filled.congr {s t : State} {bs : List Byte} (h : s.Filled bs)
    (hb : t.outBuf = s.outBuf) (ho : t.op = s.op) : t.Filled bs :=
  ⟨hb.trans h.outBuf, ho.trans h.op⟩

theorem State.Filled.outAt {s : State} {bs : List Byte} (h : s.Filled bs) (j : Nat) :
    s.outAt j = bs[j]? := by
  rw [State.outAt, h.outBuf, ← Memory.read?_ofBytes 0 bs j, Nat.zero_add]

/-- The result bytes of a state whose OUT holds exactly `bs`. -/
theorem State.output_ofBytes {t : State} {bs : List Byte} (hb : t.outBuf = Memory.ofBytes 0 bs)
    (hl : t.outLen = bs.length) : t.output = bs.map some := by
  have hx (j : Nat) : t.outAt j = bs[j]? := by
    rw [State.outAt, hb, ← Memory.read?_ofBytes 0 bs j, Nat.zero_add]
  apply List.ext_getElem?
  intro j
  simp only [State.output, List.getElem?_map, hl]
  by_cases h : j < bs.length <;> simp [h, hx]

/-! ### The input of a command -/

@[simp] theorem State.input_length (s : State) : s.input.length = s.inLen := s.chars_length 0 s.inLen

theorem State.input_getElem? (s : State) {j : Nat} (h : j < s.inLen) :
    s.input[j]? = some (s.memRead j) := by
  have hj := s.chars_getElem? 0 s.inLen j h
  rwa [Nat.zero_add] at hj

/-- A state's input is a given list when its length and its bytes are. -/
theorem State.input_eq {s : State} {l : List Byte} (hl : s.inLen = l.length)
    (h : ∀ j, j < l.length → l[j]? = some (s.memRead j)) : s.input = l := by
  apply List.ext_getElem?
  intro j
  by_cases hj : j < l.length
  · rw [s.input_getElem? (by omega), h j hj]
  · rw [List.getElem?_eq_none (by rw [State.input_length]; omega), List.getElem?_eq_none (by omega)]

theorem CommandFrame.input {s t : State} (f : CommandFrame s t) : t.input = s.input := by
  rw [State.input, State.input, f.inLen]
  exact State.chars_congr f.inBuf f.epoch 0 s.inLen

/-- The alphabet scan is the list function on the scanned characters. -/
theorem State.scanAlphabet_eq (s : State) (i k : Nat) :
    s.scanAlphabet i k = Codec.firstInvalid i (s.chars i k) := by
  induction k generalizing i with
  | zero => rfl
  | succ k ih => simp only [State.scanAlphabet, State.chars, Codec.firstInvalid, ih]

/-! ### Running a command -/

/-- From a ready state a command runs its body. -/
theorem runCommand_ready {s : State} (h : s.Ready) (body : State → State) :
    runCommand body s = .next (body s.start) := by
  rw [runCommand, if_pos h.1, if_pos h.2]

/-- A command that answers a next state started from a ready one. -/
theorem runCommand_next {body : State → State} {s t : State} (h : runCommand body s = .next t) :
    s.Ready ∧ t = body s.start := by
  simp only [runCommand] at h
  split_ifs at h with h1 h2
  cases h
  exact ⟨⟨h1, h2⟩, rfl⟩

/-- A command that answers a next state started from a ready one. -/
theorem exec_next_ready {i : Instr} {s t : State} (h : exec i s = .next t) : s.Ready := by
  cases i <;> exact (runCommand_next h).1

/-! ### The frame of the loops -/

/-- What the inside of a command leaves unchanged. -/
structure BodyFrame (s t : State) : Prop where
  params : t.params = s.params
  inBuf : t.inBuf = s.inBuf
  inLen : t.inLen = s.inLen
  epoch : t.epoch = s.epoch
  host : t.host = s.host
  seen : t.seen = s.seen

theorem BodyFrame.refl (s : State) : BodyFrame s s := ⟨rfl, rfl, rfl, rfl, rfl, rfl⟩

theorem BodyFrame.trans {s t u : State} (h : BodyFrame s t) (g : BodyFrame t u) : BodyFrame s u :=
  ⟨g.params.trans h.params, g.inBuf.trans h.inBuf, g.inLen.trans h.inLen, g.epoch.trans h.epoch,
    g.host.trans h.host, g.seen.trans h.seen⟩

theorem BodyFrame.memRead {s t : State} (h : BodyFrame s t) (i : Nat) : t.memRead i = s.memRead i :=
  State.memRead_congr h.inBuf h.epoch i

theorem BodyFrame.toCommandFrame {s t : State} (h : BodyFrame s t) (hp : t.phase = .idle) :
    CommandFrame s t :=
  ⟨h.params, h.inBuf, h.inLen, h.epoch, h.host, h.seen, hp⟩

theorem State.encodeGroup_bodyFrame (s : State) (l r : Byte) : BodyFrame s (s.encodeGroup l r) := by
  constructor <;> simp [State.encodeGroup, State.emitTriple, State.emitPair]

theorem State.encodeGroups_bodyFrame (k : Nat) (s : State) : BodyFrame s (State.encodeGroups k s) := by
  induction k generalizing s with
  | zero => exact .refl s
  | succ k ih =>
    rw [State.encodeGroups]
    split_ifs
    · exact (s.encodeGroup_bodyFrame _ _).trans (ih _)
    · exact .refl s

theorem State.encodeFinal_bodyFrame (s : State) : BodyFrame s s.encodeFinal := by
  rw [State.encodeFinal]
  split_ifs <;> constructor <;> simp [State.emitTriple, State.emitParity]

theorem State.acceptWindow_bodyFrame (s : State) (b0 b1 : Byte) :
    BodyFrame s (s.acceptWindow b0 b1) := by
  constructor <;> simp [State.acceptWindow]

/-- The window loop ends in a state, with or without an error, of the same frame. -/
theorem State.decodeWindows_bodyFrame (k : Nat) (s : State) :
    (∀ t, State.decodeWindows k s = .ok t → BodyFrame s t) ∧
      ∀ e t, State.decodeWindows k s = .error (e, t) → BodyFrame s t := by
  induction k generalizing s with
  | zero =>
    refine ⟨fun t h => ?_, fun e t h => ?_⟩
    · cases h
      exact .refl s
    · cases h
  | succ k ih =>
    rw [State.decodeWindows]
    split_ifs
    · split
      · rename_i b0 b1 _
        have hf := s.acceptWindow_bodyFrame b0 b1
        exact ⟨fun t h => hf.trans ((ih _).1 t h), fun e t h => hf.trans ((ih _).2 e t h)⟩
      · refine ⟨fun t h => ?_, fun e t h => ?_⟩
        · cases h
        · cases h
          exact .refl s
    · refine ⟨fun t h => ?_, fun e t h => ?_⟩
      · cases h
        exact .refl s
      · cases h

/-! ### One step -/

/-- A host access between commands is the step's whole effect. -/
theorem step_access {s : State} {a : Access} {rest : List HostAction} (hw : s.params.wf)
    (hp : s.phase = .idle) (hh : s.host = .access a :: rest) :
    step s = hostAccess { s with host := rest } a := by
  simp only [step, nextMove, if_pos hw, hh, hostMove, whenIdle, hp]

/-- A run of `k + m` steps goes on from where the first `k` end. -/
theorem run_add {k : Nat} {s t : State} (m : Nat) (h : Host.Core.run core k s = .next t) :
    Host.Core.run core (k + m) s = Host.Core.run core m t := by
  induction k generalizing s with
  | zero =>
    cases h
    rw [Nat.zero_add]
  | succ k ih =>
    rw [Nat.succ_add]
    simp only [Host.Core.run] at h ⊢
    cases hs : core.step s with
    | next s' =>
      rw [hs] at h
      exact ih h
    | fault _ =>
      rw [hs] at h
      cases h
    | refused _ =>
      rw [hs] at h
      cases h

/-- Everything a step can do, once: idle, a host access, a command, or a reset. -/
theorem step_cases {s t : State} (h : step s = .next t) :
    s.params.wf ∧
      ((s.host = [] ∧ t = s) ∨
        ∃ rest, (∃ a, s.host = .access a :: rest ∧ s.phase = .idle ∧
            hostAccess { s with host := rest } a = .next t) ∨
          (∃ op, s.host = .writeCmd op :: rest ∧ s.phase = .idle ∧
            exec (decodeOp op) { s with host := rest } = .next t) ∨
          (s.host = .reset :: rest ∧ t = State.hostReset { s with host := rest })) := by
  simp only [step, nextMove] at h
  by_cases hw : s.params.wf
  · refine ⟨hw, ?_⟩
    rw [if_pos hw] at h
    cases hh : s.host with
    | nil =>
      rw [hh] at h
      cases h
      exact Or.inl ⟨rfl, rfl⟩
    | cons a rest =>
      refine Or.inr ⟨rest, ?_⟩
      rw [hh] at h
      cases a with
      | access a =>
        cases hp : s.phase with
        | idle =>
          simp only [hostMove, whenIdle, hp] at h
          exact Or.inl ⟨a, rfl, rfl, h⟩
        | running => simp [hostMove, whenIdle, hp] at h
      | writeCmd op =>
        cases hp : s.phase with
        | idle =>
          simp only [hostMove, whenIdle, hp] at h
          exact Or.inr (Or.inl ⟨op, rfl, rfl, h⟩)
        | running => simp [hostMove, whenIdle, hp] at h
      | reset =>
        simp only [hostMove] at h
        cases h
        exact Or.inr (Or.inr ⟨rfl, rfl⟩)
  · rw [if_neg hw] at h
    cases h

end Sys2Proof.Machine
end

