-- ==== Sys2Proof/Laws/PerInstr.lean ====
section
/-! SUPPORT. The statements made per command, one lemma per constructor of `Instr`. -/

namespace Sys2Proof.Laws

/-- A command is well formed, and its word decodes back to it, whatever bytes follow. -/
def RoundTrip.Statement (i : Instr) : Prop :=
  i.wf = true ∧ decodeOp (encodeOp i) = i ∧
    ∀ rest, decodeInstr (encodeInstr i ++ rest) = .ok (i, rest)

theorem RoundTrip.encode : RoundTrip.Statement .encode := ⟨rfl, rfl, fun _ => rfl⟩

theorem RoundTrip.decode : RoundTrip.Statement .decode := ⟨rfl, rfl, fun _ => rfl⟩

end Sys2Proof.Laws
end

