-- ==== Sys2Proof/Tests/Slice0.lean ====
section
/-! SUPPORT. The model's own tests, with expected results from spec/, and for every statement with
hypotheses a state and operands that meet them together. -/

namespace Sys2Proof.Machine.Tests

/-! ### Helpers -/

/-- The reset state with an input loaded. -/
def withInput (bs : List Byte) : State :=
  { State.reset with inBuf := Memory.ofBytes 0 bs, inLen := bs.length }

/-- The reset state with the host about to do something. -/
def withHost (as : List HostAction) : State := { State.reset with host := as }

/-- What the host observes of an outcome, where there is a next state. -/
def observed : Host.Outcome State Fault Refusal → Option Observation
  | .next t => some t.observe
  | .fault _ => none
  | .refused _ => none

/-- The observation of a success with these bytes. -/
def success (bs : List Byte) : Option Observation :=
  some { err := 0, errPos := 0, outLen := bs.length, output := bs.map some }

/-- The observation of a failed DECODE. -/
def failure (code : BitVec 3) (pos : Nat) : Option Observation :=
  some { err := code, errPos := pos, outLen := 0, output := [] }

/-- `xesef-dixax`, the encoding of `31 32` (95_test_vectors.md T-ENC7). -/
def strXesef : List Byte := [0x78, 0x65, 0x73, 0x65, 0x66, 0x2D, 0x64, 0x69, 0x78, 0x61, 0x78]

/-! ### Well-formedness, command words, encodings -/

/-- 00_scope.md R5: `IN_MAX >= 5`. -/
theorem test_wf_refuses_small_inMax : ¬ Params.wf { inMax := 4, outMax := 197 } := by decide

/-- 00_scope.md R5: `OUT_MAX >= 6 * (IN_MAX / 2) + 5`. -/
theorem test_wf_refuses_small_outMax : ¬ Params.wf { inMax := 64, outMax := 196 } := by decide

/-- The parameters of 95_test_vectors.md section 3, with `LENW = 8`. -/
theorem test_wf_accepts_reference : Params.reference.wf ∧ Params.reference.lenW = 8 := by
  decide +kernel

/-- 30_encoding.md R45: bit 0 is the one field; the word of ENCODE written out bit by bit. -/
theorem test_decode_word_encode : decodeInstr [0b00000000#8] = .ok (.encode, []) := rfl

/-- The word of DECODE written out bit by bit. -/
theorem test_decode_word_decode : decodeInstr [0b00000001#8] = .ok (.decode, []) := rfl

/-- There is no command without a byte. -/
theorem test_decode_refuses_nothing : decodeInstr [] = .error .noCommandByte := rfl

/-- The classifier on the bytes of 95_test_vectors.md T-ROM3. -/
theorem test_class : [0x61#8, 0x62#8, 0x78#8, 0x2D#8, 0x41#8, 0x6A#8, 0x00#8, 0xFF#8].map charClass =
    [.vowel, .dataCons, .sentinel, .sep, .other, .other, .other, .other] := by decide

/-- The checksum on the largest sum, 95_test_vectors.md T-C last row. -/
theorem test_csnext_max : csnext 35 0xFF 0xFF = 19 := by decide

/-! ### The commands -/

/-- 95_test_vectors.md T-ENC15: `FF FF` gives `xuzoz-zyxux`. -/
theorem test_encode_all_ones : observed (exec .encode (withInput [0xFF, 0xFF])) =
    success [0x78, 0x75, 0x7A, 0x6F, 0x7A, 0x2D, 0x7A, 0x79, 0x78, 0x75, 0x78] := by decide +kernel

/-- 95_test_vectors.md T-ENC10: `61 62 63` gives `ximek-domex`. -/
theorem test_encode_odd : observed (exec .encode (withInput [0x61, 0x62, 0x63])) =
    success [0x78, 0x69, 0x6D, 0x65, 0x6B, 0x2D, 0x64, 0x6F, 0x6D, 0x65, 0x78] := by decide +kernel

/-- 43_decoder.md R124, worked example: `xesef-dixax` gives `31 32`. -/
theorem test_decode_even : observed (exec .decode (withInput strXesef)) = success [0x31, 0x32] := by
  decide +kernel

/-- 95_test_vectors.md T-DEC31: `xaaef-dixax` is `ExpectedConsonant`, not the numeric check. -/
theorem test_decode_order : observed (exec .decode (withInput [0x78, 0x61, 0x61, 0x65, 0x66, 0x2D, 0x64,
    0x69, 0x78, 0x61, 0x78])) = failure 6 0 := by decide +kernel

/-! ### Witnesses: the hypotheses of each statement can be met together -/

theorem witness_reset_inv : State.reset.Inv := by constructor <;> decide

/-- The invariant with any host list. -/
theorem inv_withHost (as : List HostAction) : (withHost as).Inv := by
  have h := witness_reset_inv
  exact ⟨h.params_wf, h.inLen_le, h.outLen_le, h.err_outLen, h.errPos_err, h.errPos_lt, h.idle, h.in_wf,
    h.in_below, h.out_wf, h.out_range, h.op_eq, h.ip_le, h.op_le⟩

theorem witness_ready : State.reset.Ready ∧ State.reset.inLen = 0 ∧ (withInput strXesef).Ready := by
  decide

theorem witness_StepRunsTheCommandWritten :
    ((withHost [.writeCmd 1]).params.wf ∧ (withHost [.writeCmd 1]).phase = .idle ∧
      (withHost [.writeCmd 1]).host = .writeCmd 1 :: []) ∧
    State.reset.params.wf ∧ decodeTableWord 8 1 = some .decode := by decide

theorem witness_IdleBlockHoldsItsRegisters : State.reset.params.wf ∧ State.reset.host = [] := by decide

theorem witness_ResetLeavesTheResetValues :
    ({ withHost [.reset] with phase := .running } : State).params.wf ∧
      ({ withHost [.reset] with phase := .running } : State).host = .reset :: [] := by decide

theorem witness_EveryStepKeepsTheInvariant : (withHost [.writeCmd 0]).Inv ∧
    ∃ t, step (withHost [.writeCmd 0]) = .next t := ⟨inv_withHost _, _, rfl⟩

/-- `untriple` answers a byte: the triple of `31` under 1 (95_test_vectors.md T-T). -/
theorem witness_TripleReversalInvertsEmission : untriple 1 12 1 1 = .ok 0x31 ∧
    tripleA 0x31 1 = 1 ∧ tripleB 0x31 = 12 ∧ tripleC 0x31 1 = 1 := by decide

/-- Both sides of the numeric check, at the boundary values 3 and 4. -/
theorem witness_NumericCheckAcceptsFourVowels :
    ((3 + 6 - 0 % 6) % 6 < 4 ∧ untriple 3 0 3 0 = .ok 0xC3) ∧
      4 ≤ (4 + 6 - 0 % 6) % 6 ∧ untriple 4 0 3 0 = .error .corrupted ∧
      untriple 3 0 4 0 = .error .corrupted := by decide

/-- A first and a last window: index 0 and 0 of one window; odd and even counts. -/
theorem witness_EncodeLayout : 0 < (withInput [0x31, 0x32]).inLen / 2 ∧
    (withInput [0x31, 0x32]).inLen % 2 = 0 ∧ (withInput [0x31]).inLen % 2 = 1 := by decide

theorem witness_EncodeFrame : ∃ t, exec .encode (withInput [0x31, 0x32]) = .next t := ⟨_, rfl⟩

/-- ENCODE's last character is the trailer, below `OUT_LEN`; index `OUT_LEN` is not. -/
theorem witness_EncodeOutput :
    (match exec .encode State.reset with
      | .next t => decide (4 < t.outLen ∧ ¬ 5 < t.outLen)
      | .fault _ => false
      | .refused _ => false) = true := by decide +kernel

/-- Success, an error with a payload and an error without: `xubax`, `x!x`, `xx`. -/
theorem witness_DecodeIsAllOrNothing :
    observed (exec .decode (withInput [0x78, 0x75, 0x62, 0x61, 0x78])) = success [0xC0] ∧
      observed (exec .decode (withInput [0x78, 0x21, 0x78])) = failure 4 1 ∧
      observed (exec .decode (withInput [0x78, 0x78])) = failure 3 0 := by decide +kernel

theorem witness_DecodeOfXexaxIsEmpty :
    (withInput [0x78, 0x65, 0x78, 0x61, 0x78]).Ready ∧
      (withInput [0x78, 0x65, 0x78, 0x61, 0x78]).input = [0x78#8, 0x65#8, 0x78#8, 0x61#8, 0x78#8] := by
  decide

/-- The clauses of the shape check: `x` and `xy`, then `yx`, then the empty string and `z`. -/
theorem witness_DecodeReportsShapeErrors :
    ((withInput [0x78]).memRead 0 = 0x78#8 ∧ (withInput [0x78]).inLen < 2) ∧
      ((withInput [0x78, 0x79]).memRead 0 = 0x78#8 ∧ (withInput [0x78, 0x79]).memRead 1 ≠ 0x78#8) ∧
      ((withInput [0x79, 0x78]).memRead 0 ≠ 0x78#8 ∧ (withInput [0x79, 0x78]).memRead 1 = 0x78#8) ∧
      ¬ 1 ≤ State.reset.inLen ∧ (withInput [0x7A]).memRead 0 ≠ 0x78#8 := by decide

/-- `x!x` at position 1, and `xe!x` at the last interior position. -/
theorem witness_DecodeReportsTheFirstInvalidByte :
    ((withInput [0x78, 0x21, 0x78]).Ready ∧ (withInput [0x78, 0x21, 0x78]).memRead 0 = 0x78#8 ∧
      (withInput [0x78, 0x21, 0x78]).memRead 2 = 0x78#8 ∧ 1 ≤ (withInput [0x78, 0x21, 0x78]).inLen - 2 ∧
      inAlpha ((withInput [0x78, 0x21, 0x78]).memRead 1) = false) ∧
    2 ≤ (withInput [0x78, 0x65, 0x21, 0x78]).inLen - 2 ∧
      inAlpha ((withInput [0x78, 0x65, 0x21, 0x78]).memRead 1) = true ∧
      inAlpha ((withInput [0x78, 0x65, 0x21, 0x78]).memRead 2) = false := by decide +kernel

/-- One good window, then a window that starts with a consonant. -/
def badWindow : State :=
  withInput (0x78#8 :: (Codec.windows [0x31, 0x32] csInit ++ [0x62, 0x73, 0x65, 0x66, 0x2D, 0x64] ++
    [0x65, 0x78, 0x61] ++ [0x78#8]))

/-- One good window, then a remainder of five characters. -/
def longRemainder : State :=
  withInput (0x78#8 :: (Codec.windows [0x31, 0x32] csInit ++ [0x69, 0x78, 0x61, 0x62, 0x62] ++
    [0x78#8]))

/-- `xesef-dbsef-dexax`, with a second window that starts with a consonant, after one good window. -/
theorem witness_DecodeStopsAtTheFirstBadWindow :
    badWindow.Ready ∧ badWindow.input = 0x78#8 :: (Codec.windows [0x31, 0x32] csInit ++
        [0x62, 0x73, 0x65, 0x66, 0x2D, 0x64] ++ [0x65, 0x78, 0x61] ++ [0x78#8]) ∧
      (∀ ch ∈ [0x62#8, 0x73#8, 0x65#8, 0x66#8, 0x2D#8, 0x64#8] ++ [0x65#8, 0x78#8, 0x61#8],
        inAlpha ch = true) ∧
      Codec.windowError 0x62 0x73 0x65 0x66 0x2D 0x64 (Codec.csOf [0x31, 0x32] csInit) =
        some .expectedVowel := by decide +kernel

/-- The final group after one good window: a remainder of 5, the parity tuple `ixa`, the tuple `exa` that
does not match, and the data triple `iba`. -/
theorem witness_DecodeFinalGroupDecidesTheOutcome :
    (longRemainder.Ready ∧ longRemainder.input = 0x78#8 :: (Codec.windows [0x31, 0x32] csInit ++
        [0x69, 0x78, 0x61, 0x62, 0x62] ++ [0x78#8]) ∧
      ∀ ch ∈ [0x69#8, 0x78#8, 0x61#8, 0x62#8, 0x62#8], inAlpha ch = true) ∧
      (withInput strXesef).input = 0x78#8 :: (Codec.windows [0x31, 0x32] csInit ++
        [0x69, 0x78, 0x61] ++ [0x78#8]) ∧
      Codec.finalError 0x69 0x78 0x61 (Codec.csOf [0x31, 0x32] csInit) = none ∧
      Codec.finalError 0x65 0x78 0x61 (Codec.csOf [0x31, 0x32] csInit) = some .checksumMismatch ∧
      Codec.finalError 0x69 0x62 0x61 (Codec.csOf [0x31, 0x32] csInit) = none := by decide +kernel

/-- Both kinds of answer of the list decoder. -/
theorem witness_DecodeRefinesTheListDecoder :
    Codec.decodeString (withInput strXesef).input = .ok [0x31, 0x32] ∧
      Codec.decodeString State.reset.input = .error .corrupted := by decide +kernel

theorem witness_DecodeFrame : ∃ t, exec .decode (withInput strXesef) = .next t ∧ t.err = 0 :=
  ⟨_, rfl, by decide +kernel⟩

/-- Both kinds of final group of a success: the character 3 before the end is `x` or is not. -/
theorem witness_DecodeOutputLength : (withInput strXesef).memRead (11 - 3) = 0x78#8 ∧
    (withInput [0x78, 0x75, 0x62, 0x61, 0x78]).memRead (5 - 3) ≠ 0x78#8 := by decide +kernel

/-- `xesefbdixax`: the one separator of `xesef-dixax` replaced by `b` (T-DEC20). -/
theorem witness_TamperedSeparatorIsCorrupted :
    0 < ((withInput strXesef).inLen - 5) / 6 ∧ (withInput (strXesef.set 5 0x62)).Ready ∧
      (withInput (strXesef.set 5 0x62)).inLen = (withInput strXesef).inLen ∧
      (∀ i, i < 11 → i ≠ 5 →
        (withInput (strXesef.set 5 0x62)).memRead i = (withInput strXesef).memRead i) ∧
      (withInput (strXesef.set 5 0x62)).memRead 5 ≠ 0x2D#8 ∧
      inAlpha ((withInput (strXesef.set 5 0x62)).memRead 5) = true := by decide +kernel

/-- ENCODE of `31 32` writes the string that a second state holds, and DECODE of that string gives
`31 32`. -/
theorem witness_DecodeOfEncodeIsTheInput :
    ∃ t, exec .encode (withInput [0x31, 0x32]) = .next t ∧ (withInput strXesef).Ready ∧
      (withInput strXesef).inLen = t.outLen ∧
      ∀ j, j < 11 → t.outAt j = some ((withInput strXesef).memRead j) :=
  ⟨_, rfl, by decide, by decide +kernel, by decide +kernel⟩

theorem witness_EncodeOfDecodeIsTheString :
    ∃ t, exec .decode (withInput strXesef) = .next t ∧ t.err = 0 ∧ (withInput [0x31, 0x32]).Ready ∧
      (withInput [0x31, 0x32]).inLen = t.outLen ∧
      ∀ j, j < 2 → t.outAt j = some ((withInput [0x31, 0x32]).memRead j) :=
  ⟨_, rfl, by decide +kernel, by decide, by decide +kernel, by decide +kernel⟩

/-- The input `31` in a state that differs in configuration, checksum, outcome and cursor. -/
def otherState : State :=
  { withInput [0x31] with cs := 7, err := 3, op := 2, params := { inMax := 9, outMax := 99 } }

/-- Two states that agree on the input alone. -/
theorem witness_OutcomeDependsOnTheInputAlone :
    (withInput [0x31]).Ready ∧ otherState.Ready ∧ (withInput [0x31]).inLen = otherState.inLen ∧
      (withInput [0x31]).memRead 0 = otherState.memRead 0 := by decide

/-- The other command in between. -/
theorem witness_CommandsRepeatIdentically : ∃ t u, exec .decode (withInput strXesef) = .next t ∧
    exec .encode t = .next u := ⟨_, _, rfl, rfl⟩

/-- A load of two bytes, of nothing, and the calls. -/
theorem witness_HostCalls (rest : List HostAction) :
    ((withHost (loadBytes 0 [0x31, 0x32] ++ .access (.writeInLen 2) :: rest)).Inv ∧
      (withHost (callScript .encode [0x31, 0x32] ++ rest)).Inv ∧
      (withHost (callScript .decode strXesef ++ rest)).Inv) ∧
    2 ≤ Params.reference.inMax ∧ strXesef.length ≤ Params.reference.inMax :=
  ⟨⟨inv_withHost _, inv_withHost _, inv_withHost _⟩, by decide⟩

/-- The last byte of IN exists, the one after it does not; the same of OUT. -/
theorem witness_HostIndices : 63 < State.reset.params.inMax ∧ State.reset.params.inMax ≤ 64 ∧
    196 < State.reset.params.outMax ∧ State.reset.params.outMax ≤ 197 := by decide

theorem witness_HostWriteChangesOneByteOfIn (b : Byte) :
    (withHost [.access (.writeIn 63 b)]).params.wf ∧ (withHost [.access (.writeIn 63 b)]).phase = .idle ∧
      (withHost [.access (.writeIn 63 b)]).host = .access (.writeIn 63 b) :: [] ∧
      63 < (withHost [.access (.writeIn 63 b)]).params.inMax := by
  refine ⟨by show Params.reference.wf; decide, rfl, rfl, by show 63 < 64; decide⟩

/-- After ENCODE of nothing the host may read `OUT[4]`. -/
theorem witness_HostReadsGiveTheRegisters : (withHost [.access .readErr]).Inv ∧
    (∃ t, step (withHost [.writeCmd 0, .access (.readOut 4)]) = .next t ∧ 4 < t.outLen ∧
      t.host = .access (.readOut 4) :: []) ∧
    (∃ t, Host.Core.run core 2 (withHost [.writeCmd 0, .access (.readOut 4)]) = .next t ∧
      t.seen = [.outByte 4 0x78]) :=
  ⟨inv_withHost _, ⟨_, rfl, by decide +kernel, rfl⟩, ⟨_, rfl, by decide +kernel⟩⟩

/-- Each of the five conditions, at its boundary: `IN_MAX = 4`; `IN_LEN = 65` and a write of 65; a running
phase; `OUT[0]` with `OUT_LEN = 0`. -/
theorem witness_MachineConditionsAreRefused :
    ¬ ({ State.reset with params := { inMax := 4, outMax := 197 } } : State).params.wf ∧
      ({ State.reset with inLen := 65 } : State).params.inMax <
        ({ State.reset with inLen := 65 } : State).inLen ∧
      (withHost [.access (.writeInLen 65)]).params.inMax < 65 ∧
      ({ withHost [.writeCmd 0] with phase := .running } : State).phase = .running ∧
      (withHost [.access (.readOut 0)]).outLen ≤ 0 ∧
      0 < (withHost [.access (.readOut 0)]).params.outMax := by decide

/-- A host load changes IN_LEN, and a command changes OUT_LEN. -/
theorem witness_EachAgentWritesOnlyItsOwn :
    (∃ t, step (withHost [.access (.writeInLen 3)]) = .next t ∧ t.inLen ≠ 0) ∧
      ∃ t, step (withHost [.writeCmd 0]) = .next t ∧ t.outLen ≠ 0 :=
  ⟨⟨_, rfl, by decide⟩, ⟨_, rfl, by decide +kernel⟩⟩

end Sys2Proof.Machine.Tests
end

/-! PROOFS. What `ERRPOS` holds after a command (10_state.md R16): the alphabet scan is the one place
that reports a position. -/

namespace Sys2Proof.Machine

/-! ### Errors and outcomes without a position -/

/-- The error is not `InvalidByte`: another code than 4, and 0 for `ERRPOS`. -/
def DecodeError.Unplaced (e : DecodeError) : Prop := e.code ≠ 4 ∧ e.pos = 0

/-- A check of the decoder that never answers `InvalidByte`. -/
def FailsUnplaced {α : Type} (x : Except DecodeError α) : Prop := ∀ e, x = .error e → e.Unplaced

/-- The registers report no position: `ERR` is not 4 and `ERRPOS` is 0. -/
def State.Unplaced (t : State) : Prop := t.err ≠ 4 ∧ t.errPos = 0

theorem DecodeError.unplaced_corrupted : DecodeError.Unplaced .corrupted := ⟨by decide, rfl⟩

theorem State.succeed_unplaced (s : State) : s.succeed.Unplaced := by
  constructor
  · rw [State.succeed_err]
    decide
  · exact State.succeed_errPos s

theorem State.raiseError_unplaced (s : State) {e : DecodeError} (he : e.Unplaced) :
    (s.raiseError e).Unplaced := he

/-! ### The checks of a unit -/

theorem FailsUnplaced.ok {α : Type} (a : α) : FailsUnplaced (.ok a) := by
  intro e h
  cases h

/-- Checks in sequence fail as one of them fails. -/
theorem FailsUnplaced.bind {α β : Type} {x : Except DecodeError α} {f : α → Except DecodeError β}
    (hx : FailsUnplaced x) (hf : ∀ a, FailsUnplaced (f a)) : FailsUnplaced (x >>= f) := by
  intro e h
  cases x with
  | error e' =>
    cases h
    exact hx e rfl
  | ok a => exact hf a e h

theorem needVowel_failsUnplaced (ch : Byte) : FailsUnplaced (needVowel ch) := by
  intro e h
  obtain ⟨rfl, -⟩ := needVowel_error h
  exact ⟨by decide, rfl⟩

theorem needDataCons_failsUnplaced (ch : Byte) : FailsUnplaced (needDataCons ch) := by
  intro e h
  obtain ⟨-, rfl⟩ | ⟨-, -, rfl⟩ := needDataCons_error h
  · exact DecodeError.unplaced_corrupted
  · exact ⟨by decide, rfl⟩

theorem needSep_failsUnplaced (ch : Byte) : FailsUnplaced (needSep ch) := by
  intro e h
  obtain ⟨rfl, -⟩ := needSep_error h
  exact DecodeError.unplaced_corrupted

theorem untriple_error {p : Fin 6} {q : Fin 16} {r : Fin 6} {cs : Fin 36} {e : DecodeError}
    (h : untriple p q r cs = .error e) :
    e = .corrupted ∧ (4 ≤ removeLo p cs ∨ 4 ≤ removeHi r cs) := by
  simp only [untriple] at h
  split_ifs at h with hv
  cases h
  exact ⟨rfl, hv⟩

theorem untriple_failsUnplaced (p : Fin 6) (q : Fin 16) (r : Fin 6) (cs : Fin 36) :
    FailsUnplaced (untriple p q r cs) := by
  intro e h
  obtain ⟨rfl, -⟩ := untriple_error h
  exact DecodeError.unplaced_corrupted

theorem matchParity_error {a c : Fin 6} {cs : Fin 36} {e : DecodeError}
    (h : matchParity a c cs = .error e) : e = .checksumMismatch ∧ ¬ (a = cslo cs ∧ c = cshi cs) := by
  simp only [matchParity] at h
  split_ifs at h with hm
  cases h
  exact ⟨rfl, hm⟩

theorem matchParity_failsUnplaced (a c : Fin 6) (cs : Fin 36) :
    FailsUnplaced (matchParity a c cs) := by
  intro e h
  obtain ⟨rfl, -⟩ := matchParity_error h
  exact ⟨by decide, rfl⟩

theorem readWindow_failsUnplaced (w0 w1 w2 w3 w4 w5 : Byte) (cs : Fin 36) :
    FailsUnplaced (readWindow w0 w1 w2 w3 w4 w5 cs) :=
  (needVowel_failsUnplaced w0).bind fun a =>
    (needDataCons_failsUnplaced w1).bind fun b =>
    (needVowel_failsUnplaced w2).bind fun c =>
    (untriple_failsUnplaced a b c cs).bind fun _ =>
    (needDataCons_failsUnplaced w3).bind fun _ =>
    (needSep_failsUnplaced w4).bind fun _ =>
    (needDataCons_failsUnplaced w5).bind fun _ => .ok _

theorem readFinal_failsUnplaced (t0 t1 t2 : Byte) (cs : Fin 36) :
    FailsUnplaced (readFinal t0 t1 t2 cs) := by
  refine (needVowel_failsUnplaced t0).bind fun a => ?_
  split
  · exact (needVowel_failsUnplaced t2).bind fun c =>
      (matchParity_failsUnplaced a c cs).bind fun _ => .ok _
  · exact (needDataCons_failsUnplaced t1).bind fun b =>
      (needVowel_failsUnplaced t2).bind fun c =>
      (untriple_failsUnplaced a b c cs).bind fun _ => .ok _

/-! ### The phases of DECODE -/

/-- The shape check passes exactly the strings of two or more characters with header and trailer
(43_decoder.md R103). -/
theorem shapeError_eq_none {hdr trl : Bool} {n : Nat} :
    shapeError hdr trl n = none ↔ hdr = true ∧ trl = true ∧ 2 ≤ n := by
  cases hdr <;> cases trl <;> simp [shapeError, Nat.succ_le_iff]

theorem shapeError_unplaced {hdr trl : Bool} {n : Nat} {e : DecodeError}
    (h : shapeError hdr trl n = some e) : e.Unplaced := by
  simp only [shapeError] at h
  split_ifs at h <;> cases h <;> exact ⟨by decide, rfl⟩

/-- The scan reports the first index of its range whose character is outside the alphabet
(43_decoder.md R104). -/
theorem State.scanAlphabet_some {s : State} {i k p : Nat} (h : s.scanAlphabet i k = some p) :
    i ≤ p ∧ p < i + k ∧ inAlpha (s.memRead p) = false ∧
      ∀ j, i ≤ j → j < p → inAlpha (s.memRead j) = true := by
  induction k generalizing i with
  | zero => cases h
  | succ k ih =>
    simp only [State.scanAlphabet] at h
    split_ifs at h with ha
    · obtain ⟨hle, hlt, hp, hgood⟩ := ih h
      refine ⟨by omega, by omega, hp, fun j hj hjp => ?_⟩
      obtain rfl | hne := eq_or_ne j i
      · exact ha
      · exact hgood j (by omega) hjp
    · cases h
      exact ⟨le_rfl, by omega, by simpa using ha, fun j hj hjp => by omega⟩

theorem State.decodeWindows_error_unplaced {k : Nat} {s t : State} {e : DecodeError}
    (h : State.decodeWindows k s = .error (e, t)) : e.Unplaced := by
  induction k generalizing s with
  | zero => cases h
  | succ k ih =>
    rw [State.decodeWindows] at h
    split_ifs at h
    split at h
    · exact ih h
    · rename_i e' he
      cases h
      exact readWindow_failsUnplaced _ _ _ _ _ _ _ _ he

theorem State.decodeFinal_unplaced (s : State) : s.decodeFinal.Unplaced := by
  rw [State.decodeFinal]
  split_ifs
  · split
    · exact State.succeed_unplaced _
    · exact State.succeed_unplaced _
    · rename_i e he
      exact State.raiseError_unplaced s (readFinal_failsUnplaced _ _ _ _ e he)
  · exact State.raiseError_unplaced s DecodeError.unplaced_corrupted

theorem State.decodeInterior_unplaced (s : State) : s.decodeInterior.Unplaced := by
  rw [State.decodeInterior]
  split
  · exact State.decodeFinal_unplaced _
  · exact State.raiseError_unplaced _ (State.decodeWindows_error_unplaced ‹_›)

/-- DECODE reports a position only from the alphabet scan, behind a good shape. -/
theorem decodeBody_unplaced_or_scan (s : State) :
    (decodeBody s).Unplaced ∨
      ∃ p, shapeError s.hasHeader s.hasTrailer s.inLen = none ∧
        s.scanAlphabet 1 (s.inLen - 2) = some p ∧
        decodeBody s = s.raiseError (.invalidByte p) := by
  rw [decodeBody]
  split_ifs
  · exact Or.inl s.succeed_unplaced
  · split
    · rename_i e he
      exact Or.inl (s.raiseError_unplaced (shapeError_unplaced he))
    · rename_i hshape
      split
      · rename_i p hp
        exact Or.inr ⟨p, hshape, hp, rfl⟩
      · exact Or.inl s.decodeInterior_unplaced

/-! ### The two commands -/

theorem encodeBody_errPos (s : State) : (encodeBody s).errPos = 0 := by
  rw [encodeBody]
  split_ifs
  · exact State.succeed_errPos _
  · exact State.succeed_errPos _

/-- An `InvalidByte` that DECODE answers is the first interior character outside the alphabet of a
string with header and trailer (43_decoder.md R104). -/
theorem invalidByte_position {s : State} {p : Nat}
    (hshape : shapeError s.hasHeader s.hasTrailer s.inLen = none)
    (hscan : s.scanAlphabet 1 (s.inLen - 2) = some p) :
    1 ≤ p ∧ p ≤ s.inLen - 2 ∧ inAlpha (s.memRead p) = false ∧
      (∀ j, 1 ≤ j → j < p → inAlpha (s.memRead j) = true) ∧ s.memRead 0 = 0x78#8 ∧
      s.memRead (s.inLen - 1) = 0x78#8 := by
  obtain ⟨hhdr, htrl, -⟩ := shapeError_eq_none.mp hshape
  obtain ⟨-, hfirst⟩ := of_decide_eq_true hhdr
  obtain ⟨-, hlast⟩ := of_decide_eq_true htrl
  obtain ⟨hle, hlt, hp, hgood⟩ := State.scanAlphabet_some hscan
  exact ⟨hle, by omega, hp, hgood, hfirst, hlast⟩

/-- Settles O32: a command reports a position only when the alphabet scan of DECODE finds one. -/
theorem invalidByteMeansOutsideTheAlphabet : Obligations.InvalidByteMeansOutsideTheAlphabet := by
  unfold Obligations.InvalidByteMeansOutsideTheAlphabet
  refine ⟨fun s t h => ?_, fun s t h => ?_⟩
  · obtain ⟨-, rfl⟩ := runCommand_next h
    exact encodeBody_errPos _
  · obtain ⟨-, rfl⟩ := runCommand_next h
    obtain ⟨herr, hpos⟩ | ⟨p, hshape, hscan, hbody⟩ := decodeBody_unplaced_or_scan s.start
    · exact ⟨fun h4 => absurd h4 herr, fun _ => hpos⟩
    · have hpos := invalidByte_position hshape hscan
      rw [hbody]
      exact ⟨fun _ => hpos, fun hne => absurd rfl hne⟩

end Sys2Proof.Machine

/-! PROOFS. "No carry-over between commands" (10_state.md R23): two runs of a command that start with
the same input stay alike in all that the command reads, and so end in the same observation. -/

namespace Sys2Proof.Machine

/-! ### What is observed at the end of a command -/

theorem State.raiseError_observe (s : State) (e : DecodeError) :
    (s.raiseError e).observe = { err := e.code, errPos := e.pos, outLen := 0, output := [] } := rfl

theorem State.succeed_observe_congr {s s' : State} (hb : s.outBuf = s'.outBuf) (ho : s.op = s'.op) :
    s.succeed.observe = s'.succeed.observe := by
  have hout (j : Nat) : s.succeed.outAt j = s'.succeed.outAt j := by
    simp only [State.outAt, State.succeed_outBuf, hb]
  simp only [State.observe, State.output, State.succeed_err, State.succeed_errPos,
    State.succeed_outLen, ho, funext hout]

/-! ### Two states with the same input -/

/-- The same `IN_LEN` and the same bytes below it. -/
structure SameInput (s s' : State) : Prop where
  inLen : s.inLen = s'.inLen
  memRead : ∀ k, k < s.inLen → s.memRead k = s'.memRead k

variable {s s' : State}

theorem SameInput.chars (h : SameInput s s') {i k : Nat} (hk : i + k ≤ s.inLen) :
    s.chars i k = s'.chars i k := by
  induction k generalizing i with
  | zero => rfl
  | succ k ih => rw [State.chars, State.chars, h.memRead i (by omega), ih (by omega)]

theorem SameInput.scanAlphabet (h : SameInput s s') {i k : Nat} (hk : i + k ≤ s.inLen) :
    s.scanAlphabet i k = s'.scanAlphabet i k := by
  rw [State.scanAlphabet_eq, State.scanAlphabet_eq, h.chars hk]

theorem SameInput.isEmptyLiteral (h : SameInput s s') : s.isEmptyLiteral = s'.isEmptyLiteral := by
  apply decide_eq_decide.mpr
  rw [← h.inLen]
  exact and_congr_right fun hn => by rw [h.chars (by omega)]

theorem SameInput.hasHeader (h : SameInput s s') : s.hasHeader = s'.hasHeader := by
  apply decide_eq_decide.mpr
  rw [← h.inLen]
  exact and_congr_right fun hn => by rw [h.memRead 0 (by omega)]

theorem SameInput.hasTrailer (h : SameInput s s') : s.hasTrailer = s'.hasTrailer := by
  apply decide_eq_decide.mpr
  rw [← h.inLen]
  exact and_congr_right fun hn => by rw [h.memRead (s.inLen - 1) (by omega)]

/-! ### Two runs alike -/

/-- Two states inside a command that agree in all it reads: the input, OUT, the cursors and `CS`. -/
structure SameRun (s s' : State) : Prop extends SameInput s s' where
  outBuf : s.outBuf = s'.outBuf
  op : s.op = s'.op
  ip : s.ip = s'.ip
  cs : s.cs = s'.cs

/-- The start of a command with `CS <- 1` clears whatever else differs. -/
theorem SameInput.sameRun_start (h : SameInput s s') : SameRun s.start.initCs s'.start.initCs :=
  { h with outBuf := rfl, op := rfl, ip := rfl, cs := rfl }

namespace SameRun

theorem emit (h : SameRun s s') (ch : Byte) : SameRun (s.emit ch) (s'.emit ch) where
  inLen := h.inLen
  memRead := h.memRead
  outBuf := by rw [State.emit_outBuf, State.emit_outBuf, h.outBuf, h.op]
  op := congrArg (· + 1) h.op
  ip := h.ip
  cs := h.cs

theorem emitAll (h : SameRun s s') (chs : List Byte) : SameRun (s.emitAll chs) (s'.emitAll chs) := by
  induction chs generalizing s s' with
  | nil => exact h
  | cons ch chs ih => exact ih (h.emit ch)

theorem advance (h : SameRun s s') (k : Nat) : SameRun (s.advance k) (s'.advance k) :=
  { h with ip := congrArg (· + k) h.ip }

theorem stepCs (h : SameRun s s') (l r : Byte) : SameRun (s.stepCs l r) (s'.stepCs l r) :=
  { h with cs := congrArg (csnext · l r) h.cs }

theorem emitTriple (h : SameRun s s') (v : Byte) : SameRun (s.emitTriple v) (s'.emitTriple v) := by
  rw [State.emitTriple, State.emitTriple, h.cs]
  exact h.emitAll _

theorem emitParity (h : SameRun s s') : SameRun s.emitParity s'.emitParity := by
  rw [State.emitParity, State.emitParity, h.cs]
  exact h.emitAll _

theorem encodeGroup (h : SameRun s s') (l r : Byte) :
    SameRun (s.encodeGroup l r) (s'.encodeGroup l r) :=
  (((h.emitTriple l).emitAll (pairChars r)).stepCs l r).advance 2

theorem acceptWindow (h : SameRun s s') (b0 b1 : Byte) :
    SameRun (s.acceptWindow b0 b1) (s'.acceptWindow b0 b1) :=
  (((h.emit b0).emit b1).stepCs b0 b1).advance 6

theorem succeed_observe (h : SameRun s s') : s.succeed.observe = s'.succeed.observe :=
  State.succeed_observe_congr h.outBuf h.op

/-! ### ENCODE -/

theorem encodeGroups (h : SameRun s s') (k : Nat) :
    SameRun (State.encodeGroups k s) (State.encodeGroups k s') := by
  induction k generalizing s s' with
  | zero => exact h
  | succ k ih =>
    rw [State.encodeGroups, State.encodeGroups, ← h.inLen, ← h.ip]
    split_ifs with hk
    · rw [← h.memRead s.ip (by omega), ← h.memRead (s.ip + 1) (by omega)]
      exact ih (h.encodeGroup _ _)
    · exact h

theorem encodeFinal (h : SameRun s s') : SameRun s.encodeFinal s'.encodeFinal := by
  rw [State.encodeFinal, State.encodeFinal, ← h.inLen, ← h.ip]
  split_ifs with hk
  · rw [← h.memRead s.ip (by omega)]
    exact (h.emitTriple _).advance 1
  · exact h.emitParity

/-! ### DECODE -/

theorem windowAt (h : SameRun s s') {p : Nat} (hp : p + 6 ≤ s.inLen) :
    s.windowAt p = s'.windowAt p := by
  simp only [State.windowAt, h.cs, h.memRead p (by omega), h.memRead (p + 1) (by omega),
    h.memRead (p + 2) (by omega), h.memRead (p + 3) (by omega), h.memRead (p + 4) (by omega),
    h.memRead (p + 5) (by omega)]

/-- The window loops of two like runs pass together or meet the same error. -/
theorem decodeWindows (h : SameRun s s') (k : Nat) :
    (∃ t t', State.decodeWindows k s = .ok t ∧ State.decodeWindows k s' = .ok t' ∧ SameRun t t') ∨
      ∃ e t t', State.decodeWindows k s = .error (e, t) ∧
        State.decodeWindows k s' = .error (e, t') := by
  induction k generalizing s s' with
  | zero => exact Or.inl ⟨s, s', rfl, rfl, h⟩
  | succ k ih =>
    rw [State.decodeWindows, State.decodeWindows, ← h.inLen, ← h.ip]
    split_ifs with hk
    · rw [← h.windowAt (p := 1 + s.ip) (by omega)]
      cases s.windowAt (1 + s.ip) with
      | ok b => exact ih (h.acceptWindow b.1 b.2)
      | error e => exact Or.inr ⟨e, s, s', rfl, rfl⟩
    · exact Or.inl ⟨s, s', rfl, rfl, h⟩

theorem decodeFinal_observe (h : SameRun s s') :
    s.decodeFinal.observe = s'.decodeFinal.observe := by
  rw [State.decodeFinal, State.decodeFinal, ← h.inLen, ← h.ip, ← h.cs]
  split_ifs with hk
  · rw [← h.memRead (1 + s.ip) (by omega), ← h.memRead (2 + s.ip) (by omega),
      ← h.memRead (3 + s.ip) (by omega)]
    cases readFinal (s.memRead (1 + s.ip)) (s.memRead (2 + s.ip)) (s.memRead (3 + s.ip)) s.cs with
    | error e => rfl
    | ok b =>
      cases b with
      | none => exact (h.advance 3).succeed_observe
      | some v => exact ((h.emit v).advance 3).succeed_observe
  · rfl

end SameRun

/-! ### The two commands -/

theorem SameInput.encodeBody_observe (h : SameInput s s') :
    (encodeBody s.start).observe = (encodeBody s'.start).observe := by
  rw [encodeBody, encodeBody, State.start_inLen, State.start_inLen, ← h.inLen]
  split_ifs
  · have hs := s.start_filled.emitAll emptyLiteral
    have hs' := s'.start_filled.emitAll emptyLiteral
    exact State.succeed_observe_congr (hs.outBuf.trans hs'.outBuf.symm) (hs.op.trans hs'.op.symm)
  · exact (((h.sameRun_start.emit headerChar).encodeGroups _).encodeFinal.emit
      trailerChar).succeed_observe

theorem SameInput.decodeInterior_observe (h : SameInput s s') :
    s.start.decodeInterior.observe = s'.start.decodeInterior.observe := by
  rw [State.decodeInterior, State.decodeInterior, State.start_inLen, State.start_inLen, ← h.inLen]
  obtain ⟨t, t', ht, ht', hrun⟩ | ⟨e, t, t', ht, ht'⟩ :=
    h.sameRun_start.decodeWindows ((s.inLen - 2) / 6)
  · rw [ht, ht']
    exact hrun.decodeFinal_observe
  · rw [ht, ht']
    rfl

theorem SameInput.decodeBody_observe (h : SameInput s s') :
    (decodeBody s.start).observe = (decodeBody s'.start).observe := by
  have hstart : SameInput s.start s'.start := ⟨h.inLen, h.memRead⟩
  rw [decodeBody, decodeBody, ← hstart.isEmptyLiteral, ← hstart.hasHeader, ← hstart.hasTrailer,
    ← hstart.inLen]
  split_ifs
  · rfl
  · cases hshape : shapeError s.start.hasHeader s.start.hasTrailer s.start.inLen with
    | some e => rfl
    | none =>
      obtain ⟨-, -, hn⟩ := shapeError_eq_none.mp hshape
      rw [← hstart.scanAlphabet (by omega)]
      cases s.start.scanAlphabet 1 (s.start.inLen - 2) with
      | some p => rfl
      | none => exact h.decodeInterior_observe

/-- Settles O41: two runs with the same input, simulated step by step. -/
theorem outcomeDependsOnTheInputAlone : Obligations.OutcomeDependsOnTheInputAlone := by
  unfold Obligations.OutcomeDependsOnTheInputAlone
  intro i s s' hs hs' hlen hbytes
  have h : SameInput s s' := ⟨hlen, hbytes⟩
  cases i with
  | encode =>
    exact ⟨_, _, runCommand_ready hs encodeBody, runCommand_ready hs' encodeBody,
      h.encodeBody_observe⟩
  | decode =>
    exact ⟨_, _, runCommand_ready hs decodeBody, runCommand_ready hs' decodeBody,
      h.decodeBody_observe⟩

end Sys2Proof.Machine

/-! PROOFS. The alphabet ROMs and their classifier (40_alphabet_roms.md R69, R70, R72): the inverse
lookups tell the characters of one ROM apart, the classes tell the ROMs apart. -/

namespace Sys2Proof.Machine

/-! ### The 24 characters are distinct -/

theorem vowelRom_injective : Function.Injective vowelRom := fun i j h => by
  simpa using congrArg vidx? h

theorem consRom_injective : Function.Injective consRom := by decide

/-- A character of the consonant ROM stands for data, or it is the sentinel. -/
theorem charClass_consRom (j : Fin 17) :
    charClass (consRom j) = .dataCons ∨ charClass (consRom j) = .sentinel := by
  cases j using Fin.lastCases with
  | last => exact Or.inr charClass_sentinelChar
  | cast i => exact Or.inl (charClass_dataConsRom i)

theorem vowelRom_ne_consRom (i : Fin 6) (j : Fin 17) : vowelRom i ≠ consRom j := fun h => by
  have hclass := charClass_consRom j
  simp [← h] at hclass

theorem vowelRom_ne_sepChar (i : Fin 6) : vowelRom i ≠ sepChar := fun h => by
  simpa using congrArg charClass h

theorem consRom_ne_sepChar (j : Fin 17) : consRom j ≠ sepChar := fun h => by
  have hclass := charClass_consRom j
  simp [h] at hclass

/-- Settles O11: equal characters would have equal indices within a ROM, and equal classes across
the ROMs and the separator. -/
theorem alphabetRomsAreDisjoint : Obligations.AlphabetRomsAreDisjoint :=
  ⟨vowelRom_injective, consRom_injective, vowelRom_ne_consRom, vowelRom_ne_sepChar,
    consRom_ne_sepChar⟩

/-! ### One line of R70 for each class -/

theorem charClass_eq_vowel_iff {ch : Byte} : charClass ch = .vowel ↔ ∃ i, vowelRom i = ch := by
  constructor
  · intro h
    obtain ⟨i, hi⟩ := charClass_eq_vowel h
    exact ⟨i, hi.symm⟩
  · rintro ⟨i, rfl⟩
    exact charClass_vowelRom i

theorem charClass_eq_dataCons_iff {ch : Byte} :
    charClass ch = .dataCons ↔ ∃ i : Fin 16, consRom i.castSucc = ch := by
  constructor
  · intro h
    obtain ⟨i, hi⟩ := charClass_eq_dataCons h
    exact ⟨i, hi.symm⟩
  · rintro ⟨i, rfl⟩
    exact charClass_dataConsRom i

theorem charClass_eq_sentinel_iff {ch : Byte} : charClass ch = .sentinel ↔ ch = consRom 16 :=
  ⟨charClass_eq_sentinel, fun h => h ▸ charClass_sentinelChar⟩

theorem charClass_eq_sep_iff {ch : Byte} : charClass ch = .sep ↔ ch = 0x2D#8 :=
  ⟨charClass_eq_sep, fun h => h ▸ charClass_sepChar⟩

/-- The two lines of R70 for the consonant ROM, data consonants and sentinel, exclude the whole ROM
between them. -/
theorem forall_consRom_ne_iff {ch : Byte} :
    (∀ j, consRom j ≠ ch) ↔ charClass ch ≠ .dataCons ∧ charClass ch ≠ .sentinel := by
  rw [Fin.forall_fin_succ', ne_comm (b := ch)]
  simp only [ne_eq, charClass_eq_dataCons_iff, charClass_eq_sentinel_iff, not_exists]
  rfl

/-- OTHER is what the other four lines leave. -/
theorem charClass_eq_other_iff {ch : Byte} :
    charClass ch = .other ↔
      (∀ i, vowelRom i ≠ ch) ∧ (∀ j, consRom j ≠ ch) ∧ ch ≠ 0x2D#8 := by
  have hrest : charClass ch = .other ↔ charClass ch ≠ .vowel ∧
      (charClass ch ≠ .dataCons ∧ charClass ch ≠ .sentinel) ∧ charClass ch ≠ .sep := by
    cases charClass ch <;> decide
  rw [hrest, ← forall_consRom_ne_iff]
  simp only [ne_eq, charClass_eq_vowel_iff, charClass_eq_sep_iff, not_exists]

theorem inAlpha_iff {ch : Byte} : inAlpha ch = true ↔ charClass ch ≠ .other := bne_iff_ne

/-- Settles O12: one equivalence for each line of R70, and R72. -/
theorem classifierFollowsTheRoms : Obligations.ClassifierFollowsTheRoms := fun _ =>
  ⟨charClass_eq_vowel_iff, charClass_eq_dataCons_iff, charClass_eq_sentinel_iff,
    charClass_eq_sep_iff, charClass_eq_other_iff, inAlpha_iff⟩

end Sys2Proof.Machine

/-! PROOFS. The checksum step and its outputs (41_checksum.md R77, R80): their values on naturals. -/

namespace Sys2Proof.Machine

@[simp] theorem csnext_val (cs : Fin 36) (b0 b1 : Byte) :
    (csnext cs b0 b1).val = (cs.val * 5 + b0.toNat * 7 + b1.toNat) % 36 := rfl

@[simp] theorem cslo_val (cs : Fin 36) : (cslo cs).val = cs.val % 6 := rfl

@[simp] theorem cshi_val (cs : Fin 36) : (cshi cs).val = cs.val / 6 := rfl

/-- The two outputs are the base-6 digits of the state (R80). -/
theorem cslo_add_cshi (cs : Fin 36) : cs.val = (cslo cs).val + 6 * (cshi cs).val := by
  rw [cslo_val, cshi_val, Nat.mod_add_div]

/-- The worked example of R77: 398 mod 36 = 2. -/
theorem csnext_one_0x31_0x32 : csnext 1 0x31#8 0x32#8 = 2 := by decide

/-- Settles O13: the value of the step, its worked example, the one field it writes, and its two
outputs. -/
theorem checksumStepFormula : Obligations.ChecksumStepFormula :=
  ⟨csnext_val, csnext_one_0x31_0x32, fun _ _ _ => rfl,
    fun cs => ⟨cslo_val cs, cshi_val cs, cslo_add_cshi cs⟩⟩

end Sys2Proof.Machine

/-! PROOFS. What ENCODE emits and where it ends (42_encoder.md R86 to R90, R94, R95): the three
characters of a unit in OUT, and the cursors and `CS` group by group. -/

namespace Sys2Proof.Machine

/-! ### OUT after emitting -/

@[simp] theorem State.emit_outAt_op (s : State) (ch : Byte) : (s.emit ch).outAt s.op = some ch :=
  Memory.read?_write_same _ _ _

theorem State.emit_outAt_of_ne (s : State) (ch : Byte) {j : Nat} (h : j ≠ s.op) :
    (s.emit ch).outAt j = s.outAt j :=
  Memory.read?_write_other _ _ h

/-- Emitting changes no byte of OUT outside the indices the cursor passes. -/
theorem State.emitAll_outAt_of_outside (s : State) (chs : List Byte) {j : Nat}
    (h : j < s.op ∨ s.op + chs.length ≤ j) : (s.emitAll chs).outAt j = s.outAt j := by
  induction chs generalizing s with
  | nil => rfl
  | cons ch chs ih =>
    rw [List.length_cons] at h
    rw [State.emitAll, ih (s.emit ch) (by rw [State.emit_op]; omega),
      s.emit_outAt_of_ne ch (by omega)]

/-- The emitted characters stand in OUT in order, from the cursor on. -/
theorem State.emitAll_outAt (s : State) (chs : List Byte) {k : Nat} (h : k < chs.length) :
    (s.emitAll chs).outAt (s.op + k) = some chs[k] := by
  induction chs generalizing s k with
  | nil => cases h
  | cons ch chs ih =>
    cases k with
    | zero =>
      rw [State.emitAll, State.emitAll_outAt_of_outside _ _ (Or.inl (by simp))]
      exact s.emit_outAt_op ch
    | succ k =>
      have hk := ih (s.emit ch) (Nat.lt_of_succ_lt_succ h)
      rwa [State.emit_op, Nat.add_assoc, Nat.add_comm 1 k] at hk

/-- Emitting changes OUT and the output cursor alone. -/
theorem State.emitAll_eq (s : State) (chs : List Byte) :
    s.emitAll chs = { s with op := s.op + chs.length, outBuf := (s.emitAll chs).outBuf } := by
  induction chs generalizing s with
  | nil => rfl
  | cons ch chs ih =>
    have hop : (s.emit ch).op + chs.length = s.op + (ch :: chs).length := by
      rw [State.emit_op, List.length_cons]
      omega
    rw [State.emitAll, ← hop]
    exact ih (s.emit ch)

/-- A unit of three characters (30_encoding.md R52 to R54): where they stand, and the frame. -/
theorem State.emitAll_three (s : State) (x y z : Byte) :
    (s.emitAll [x, y, z]).outAt s.op = some x ∧
      (s.emitAll [x, y, z]).outAt (s.op + 1) = some y ∧
      (s.emitAll [x, y, z]).outAt (s.op + 2) = some z ∧
      (∀ j, (j < s.op ∨ s.op + 3 ≤ j) → (s.emitAll [x, y, z]).outAt j = s.outAt j) ∧
      s.emitAll [x, y, z] = { s with op := s.op + 3, outBuf := (s.emitAll [x, y, z]).outBuf } :=
  ⟨s.emitAll_outAt [x, y, z] (k := 0) (by simp), s.emitAll_outAt [x, y, z] (k := 1) (by simp),
    s.emitAll_outAt [x, y, z] (k := 2) (by simp), fun _ => s.emitAll_outAt_of_outside [x, y, z],
    s.emitAll_eq [x, y, z]⟩

/-! ### The indices of a unit as arithmetic on the byte -/

theorem bits_eq (v : Byte) (hi lo : Nat) : bits v hi lo = v.toNat / 2 ^ lo % 2 ^ (hi - lo + 1) := by
  rw [bits, Nat.shiftRight_eq_div_pow]

/-- A field that reaches bit 7 is a quotient alone. -/
theorem bits_seven (v : Byte) {lo : Nat} (h : lo ≤ 7) : bits v 7 lo = v.toNat / 2 ^ lo := by
  rw [bits_eq, Nat.mod_eq_of_lt]
  rw [Nat.div_lt_iff_lt_mul (by positivity), ← pow_add, show 7 - lo + 1 + lo = 8 by omega]
  exact v.isLt

/-- A field that reaches bit 0 is a remainder alone. -/
theorem bits_zero (v : Byte) (hi : Nat) : bits v hi 0 = v.toNat % 2 ^ (hi + 1) := by
  rw [bits_eq, pow_zero, Nat.div_one, Nat.sub_zero]

theorem tripleA_val (v : Byte) (cs : Fin 36) :
    (tripleA v cs).val = (v.toNat / 64 + cs.val) % 6 := by
  have hfield : bits v 7 6 = v.toNat / 64 := bits_seven v (by decide)
  rw [← hfield]
  rfl

theorem tripleB_val (v : Byte) : (tripleB v).val = v.toNat / 4 % 16 := bits_eq v 5 2

theorem tripleC_val (v : Byte) (cs : Fin 36) :
    (tripleC v cs).val = (v.toNat % 4 + cs.val / 6) % 6 := by
  have hfield : bits v 1 0 = v.toNat % 4 := bits_zero v 1
  rw [← hfield]
  rfl

theorem pairD_val (r : Byte) : (pairD r).val = r.toNat / 16 := bits_seven r (by decide)

theorem pairE_val (r : Byte) : (pairE r).val = r.toNat % 16 := bits_zero r 3

/-! ### The three units -/

/-- Settles O15: the indices of R88, and three characters emitted. -/
theorem emitTripleWritesThreeCharacters : Obligations.EmitTripleWritesThreeCharacters := fun s v =>
  ⟨tripleA v s.cs, tripleC v s.cs, tripleB v, tripleA_val v s.cs, tripleB_val v, tripleC_val v s.cs,
    s.emitAll_three _ _ _⟩

/-- Settles O16: the nibbles of R89, and three characters emitted, none of which depends on `CS`. -/
theorem emitPairWritesThreeCharacters : Obligations.EmitPairWritesThreeCharacters := by
  unfold Obligations.EmitPairWritesThreeCharacters
  intro s r
  obtain ⟨hd, hsep, he, hout, hframe⟩ :=
    s.emitAll_three (dataConsRom (pairD r)) sepChar (dataConsRom (pairE r))
  exact ⟨pairD r, pairE r, pairD_val r, pairE_val r, hd, hsep, he, hout, hframe, fun _ => rfl⟩

/-- Settles O17: the digits of the checksum (R80, R90) around the sentinel. -/
theorem emitParityWritesThreeCharacters : Obligations.EmitParityWritesThreeCharacters := fun s =>
  ⟨cslo s.cs, cshi s.cs, cslo_val s.cs, cshi_val s.cs, s.emitAll_three _ _ _⟩

/-! ### The registers a group and the final group leave -/

@[simp] theorem State.encodeGroup_ip (s : State) (l r : Byte) :
    (s.encodeGroup l r).ip = s.ip + 2 := by
  simp [State.encodeGroup, State.emitTriple, State.emitPair]

@[simp] theorem State.encodeGroup_op (s : State) (l r : Byte) :
    (s.encodeGroup l r).op = s.op + 6 := by
  simp [State.encodeGroup, State.emitTriple, State.emitPair, tripleChars, pairChars]

@[simp] theorem State.encodeGroup_cs (s : State) (l r : Byte) :
    (s.encodeGroup l r).cs = csnext s.cs l r := by
  simp [State.encodeGroup, State.emitTriple, State.emitPair]

/-- Either final group has three characters (30_encoding.md R48). -/
@[simp] theorem State.encodeFinal_op (s : State) : s.encodeFinal.op = s.op + 3 := by
  rw [State.encodeFinal]
  split_ifs
  · rfl
  · rfl

@[simp] theorem State.encodeFinal_cs (s : State) : s.encodeFinal.cs = s.cs := by
  rw [State.encodeFinal]
  split_ifs
  · rfl
  · rfl

/-! ### ENCODE group by group -/

/-- ENCODE on the input of `s` stands before group `j`, in state `t`: two bytes a group consumed,
the header and six characters a group emitted, `CS` the checksum after `j` groups. -/
structure EncodesAt (s : State) (j : Nat) (t : State) : Prop where
  frame : BodyFrame s t
  ip : t.ip = 2 * j
  op : t.op = 6 * j + 1
  cs : t.cs = s.csAfter j

theorem EncodesAt.start (s : State) : EncodesAt s 0 (s.start.emit headerChar).initCs :=
  ⟨⟨rfl, rfl, rfl, rfl, rfl, rfl⟩, rfl, rfl, rfl⟩

theorem EncodesAt.encodeGroup {s t : State} {j : Nat} (h : EncodesAt s j t) :
    EncodesAt s (j + 1) (t.encodeGroup (t.memRead t.ip) (t.memRead (t.ip + 1))) where
  frame := h.frame.trans (t.encodeGroup_bodyFrame _ _)
  ip := by rw [State.encodeGroup_ip, h.ip, Nat.mul_succ]
  op := by rw [State.encodeGroup_op, h.op, Nat.mul_succ, Nat.add_right_comm]
  cs := by
    rw [State.encodeGroup_cs, h.cs, h.ip, h.frame.memRead, h.frame.memRead]
    rfl

/-- As many rounds as there are groups left run in full (42_encoder.md R87 step 4). -/
theorem EncodesAt.encodeGroups {s t : State} {j : Nat} (h : EncodesAt s j t) {k : Nat}
    (hk : 2 * (j + k) ≤ s.inLen) : EncodesAt s (j + k) (State.encodeGroups k t) := by
  induction k generalizing j t with
  | zero => exact h
  | succ k ih =>
    have hleft : 2 ≤ t.inLen - t.ip := by
      rw [h.frame.inLen, h.ip]
      omega
    rw [State.encodeGroups, if_pos hleft, ← Nat.add_assoc, Nat.add_right_comm]
    exact ih h.encodeGroup (by omega)

/-- Where the loop of R87 step 4 ends: after all the full groups. -/
theorem encodesAt_encodeGroups (s : State) :
    EncodesAt s (s.inLen / 2)
      (State.encodeGroups (s.inLen / 2) (s.start.emit headerChar).initCs) := by
  simpa only [Nat.zero_add] using (EncodesAt.start s).encodeGroups (k := s.inLen / 2) (by omega)

/-! ### The two branches of ENCODE -/

/-- On the empty input ENCODE emits the literal and stops (42_encoder.md R86). -/
theorem encodeBody_start_of_empty {s : State} (h : s.inLen = 0) :
    encodeBody s.start = (s.start.emitAll emptyLiteral).succeed := if_pos h

theorem encodeBody_start_of_nonempty {s : State} (h : s.inLen ≠ 0) :
    encodeBody s.start = ((State.encodeGroups (s.inLen / 2)
      (s.start.emit headerChar).initCs).encodeFinal.emit trailerChar).succeed := if_neg h

theorem encodeBody_err (s : State) : (encodeBody s).err = 0 := by
  rw [encodeBody]
  split_ifs
  · exact State.succeed_err _
  · exact State.succeed_err _

/-- Settles O21: OUT is filled with the literal, from index 0 on. -/
theorem encodeOfEmptyInputWritesXexax : Obligations.EncodeOfEmptyInputWritesXexax := by
  unfold Obligations.EncodeOfEmptyInputWritesXexax
  intro s hs hn
  have hfill : (s.start.emitAll emptyLiteral).succeed.Filled emptyLiteral :=
    (s.start_filled.emitAll emptyLiteral).congr rfl rfl
  refine ⟨_, runCommand_ready hs encodeBody, ?_⟩
  rw [encodeBody_start_of_empty hn]
  exact ⟨hfill.op, State.output_ofBytes hfill.outBuf hfill.op, rfl, rfl, State.emitAll_cs _ _⟩

theorem encodeBody_start_bodyFrame (s : State) : BodyFrame s (encodeBody s.start) := by
  by_cases hn : s.inLen = 0
  · rw [encodeBody_start_of_empty hn]
    constructor <;> simp
  · rw [encodeBody_start_of_nonempty hn]
    have hframe := (encodesAt_encodeGroups s).frame.trans (State.encodeFinal_bodyFrame _)
    exact ⟨hframe.params, hframe.inBuf, hframe.inLen, hframe.epoch, hframe.host, hframe.seen⟩

/-- `OUT_LEN` at the end of ENCODE (42_encoder.md R94). -/
theorem encodeBody_start_outLen (s : State) :
    (encodeBody s.start).outLen = 6 * (s.inLen / 2) + 5 := by
  by_cases hn : s.inLen = 0
  · rw [encodeBody_start_of_empty hn, hn]
    rfl
  · rw [encodeBody_start_of_nonempty hn, State.succeed_outLen, State.emit_op, State.encodeFinal_op,
      (encodesAt_encodeGroups s).op]

theorem encodeBody_start_cs_of_empty {s : State} (h : s.inLen = 0) :
    (encodeBody s.start).cs = s.cs := by
  rw [encodeBody_start_of_empty h, State.succeed_cs, State.emitAll_cs, State.start_cs]

theorem encodeBody_start_cs_of_nonempty {s : State} (h : s.inLen ≠ 0) :
    (encodeBody s.start).cs = s.csAfter (s.inLen / 2) := by
  rw [encodeBody_start_of_nonempty h, State.succeed_cs, State.emit_cs, State.encodeFinal_cs,
    (encodesAt_encodeGroups s).cs]

/-- Settles O22: the empty literal, or all the groups by induction on their number. -/
theorem encodeAlwaysSucceeds : Obligations.EncodeAlwaysSucceeds := by
  unfold Obligations.EncodeAlwaysSucceeds
  intro s hs
  have hframe := encodeBody_start_bodyFrame s
  exact ⟨_, runCommand_ready hs encodeBody, encodeBody_start_outLen s, encodeBody_err _,
    encodeBody_errPos _, encodeBody_start_cs_of_empty, encodeBody_start_cs_of_nonempty,
    hframe.inBuf, hframe.inLen⟩

end Sys2Proof.Machine

/-! PROOFS. The units of the string as the decoder reads them (43_decoder.md R107 to R117): what the
encoder writes is read back, and the first check that fails is the error. -/

namespace Sys2Proof.Machine

/-! ### Triple reversal -/

/-- Removing the offset undoes adding it, and the other way round, at the first vowel. -/
theorem removeLo_eq_iff {p : Fin 6} {cs : Fin 36} {hi : Nat} (h : hi < 6) :
    removeLo p cs = hi ↔ (hi + cs.val) % 6 = p.val := by
  rw [removeLo]
  omega

/-- Removing the offset undoes adding it, and the other way round, at the second vowel. -/
theorem removeHi_eq_iff {r : Fin 6} {cs : Fin 36} {lo : Nat} (h : lo < 6) :
    removeHi r cs = lo ↔ (lo + cs.val / 6) % 6 = r.val := by
  rw [removeHi]
  omega

@[simp] theorem removeLo_tripleA (v : Byte) (cs : Fin 36) :
    removeLo (tripleA v cs) cs = bits v 7 6 :=
  (removeLo_eq_iff ((bits_lt v 7 6).trans (by decide))).mpr rfl

@[simp] theorem removeHi_tripleC (v : Byte) (cs : Fin 36) :
    removeHi (tripleC v cs) cs = bits v 1 0 :=
  (removeHi_eq_iff ((bits_lt v 1 0).trans (by decide))).mpr rfl

/-- The decoder's byte is the one whose triple was read (43_decoder.md R108, R109). -/
theorem untriple_ok {p r : Fin 6} {q : Fin 16} {cs : Fin 36} {v : Byte} :
    untriple p q r cs = .ok v ↔ tripleA v cs = p ∧ tripleB v = q ∧ tripleC v cs = r := by
  constructor
  · intro h
    simp only [untriple] at h
    split_ifs at h with hfail
    obtain ⟨hhi, hlo⟩ := not_or.mp hfail
    obtain ⟨h76, hB, h10⟩ := bits_joinTriple ⟨removeLo p cs, by omega⟩ q ⟨removeHi r cs, by omega⟩
    cases h
    refine ⟨Fin.ext ?_, hB, Fin.ext ?_⟩
    · exact (removeLo_eq_iff ((bits_lt _ 7 6).trans (by decide))).mp h76.symm
    · exact (removeHi_eq_iff ((bits_lt _ 1 0).trans (by decide))).mp h10.symm
  · rintro ⟨rfl, rfl, rfl⟩
    have hhi : bits v 7 6 < 4 := bits_lt v 7 6
    have hlo : bits v 1 0 < 4 := bits_lt v 1 0
    rw [untriple, removeLo_tripleA, removeHi_tripleC, if_neg (by omega), joinTriple_bits]

@[simp] theorem untriple_triple (v : Byte) (cs : Fin 36) :
    untriple (tripleA v cs) (tripleB v) (tripleC v cs) cs = .ok v := untriple_ok.mpr ⟨rfl, rfl, rfl⟩

/-! ### The checks -/

@[simp] theorem needVowel_vowelRom (i : Fin 6) : needVowel (vowelRom i) = .ok i :=
  needVowel_ok.mpr rfl

@[simp] theorem needDataCons_dataConsRom (i : Fin 16) : needDataCons (dataConsRom i) = .ok i :=
  needDataCons_ok.mpr rfl

@[simp] theorem needSep_sepChar : needSep sepChar = .ok () := needSep_ok.mpr rfl

/-! One check, as a link of the chain of checks (`Codec.windowError`, `Codec.finalError`) and as a
step of the reading (`readWindow`, `readFinal`): the error is this one's, or the one of what
follows. -/

section
variable {β : Type} {e : DecodeError} {rest : Option DecodeError}

theorem needVowel_bind_error_iff {ch : Byte} {f : Fin 6 → Except DecodeError β}
    (hrest : ∀ i, ch = vowelRom i → (rest = some e ↔ f i = .error e)) :
    (if charClass ch ≠ .vowel then some .expectedVowel else rest) = some e ↔
      (needVowel ch >>= f) = .error e := by
  cases hn : needVowel ch with
  | ok i =>
    obtain rfl := needVowel_ok.mp hn
    simpa [bind, Except.bind] using hrest i rfl
  | error e' =>
    obtain ⟨rfl, hclass⟩ := needVowel_error hn
    simp [bind, Except.bind, hclass]

/-- The check for a data consonant behind the one for the sentinel. -/
theorem needDataCons_bind_error_iff_of_ne {ch : Byte} {f : Fin 16 → Except DecodeError β}
    (hs : charClass ch ≠ .sentinel)
    (hrest : ∀ i, ch = dataConsRom i → (rest = some e ↔ f i = .error e)) :
    (if charClass ch ≠ .dataCons then some .expectedConsonant else rest) = some e ↔
      (needDataCons ch >>= f) = .error e := by
  cases hn : needDataCons ch with
  | ok i =>
    obtain rfl := needDataCons_ok.mp hn
    simpa [bind, Except.bind] using hrest i rfl
  | error e' =>
    obtain ⟨hs', -⟩ | ⟨-, hclass, rfl⟩ := needDataCons_error hn
    · exact absurd hs' hs
    · simp [bind, Except.bind, hclass]

theorem needDataCons_bind_error_iff {ch : Byte} {f : Fin 16 → Except DecodeError β}
    (hrest : ∀ i, ch = dataConsRom i → (rest = some e ↔ f i = .error e)) :
    (if charClass ch = .sentinel then some .corrupted
      else if charClass ch ≠ .dataCons then some .expectedConsonant else rest) = some e ↔
      (needDataCons ch >>= f) = .error e := by
  split_ifs with hs hclass
  · simp [needDataCons, bind, Except.bind, hs]
  · simpa only [if_pos hclass] using needDataCons_bind_error_iff_of_ne hs hrest
  · simpa only [if_neg hclass] using needDataCons_bind_error_iff_of_ne hs hrest

theorem needSep_bind_error_iff {ch : Byte} {f : Unit → Except DecodeError β}
    (hrest : rest = some e ↔ f () = .error e) :
    (if ch ≠ sepChar then some .corrupted else rest) = some e ↔
      (needSep ch >>= f) = .error e := by
  rw [needSep]
  by_cases hsep : ch = sepChar
  · simpa [bind, Except.bind, hsep] using hrest
  · simp [bind, Except.bind, hsep]

/-- On two vowels the numeric check of the chain is the one of `untriple` (43_decoder.md R109). -/
theorem numericFails_vowelRom (p r : Fin 6) (cs : Fin 36) :
    Codec.numericFails (vowelRom p) (vowelRom r) cs =
      decide (4 ≤ removeLo p cs ∨ 4 ≤ removeHi r cs) := by
  simp only [Codec.numericFails, vidx?_vowelRom]
  rfl

theorem untriple_bind_error_iff {p r : Fin 6} {q : Fin 16} {cs : Fin 36}
    {f : Byte → Except DecodeError β} (hrest : ∀ v, rest = some e ↔ f v = .error e) :
    (if Codec.numericFails (vowelRom p) (vowelRom r) cs then some .corrupted else rest) = some e ↔
      (untriple p q r cs >>= f) = .error e := by
  rw [numericFails_vowelRom, untriple]
  by_cases hfail : 4 ≤ removeLo p cs ∨ 4 ≤ removeHi r cs
  · simp [bind, Except.bind, hfail]
  · simpa [bind, Except.bind, hfail] using hrest _

theorem matchParity_bind_error_iff {a c : Fin 6} {cs : Fin 36} {f : Unit → Except DecodeError β}
    (hrest : rest = some e ↔ f () = .error e) :
    (if [vowelRom a, sentinelChar, vowelRom c] ≠ parityChars cs then some .checksumMismatch
      else rest) = some e ↔ (matchParity a c cs >>= f) = .error e := by
  have hmatch : [vowelRom a, sentinelChar, vowelRom c] = parityChars cs ↔
      a = cslo cs ∧ c = cshi cs := by
    simp [parityChars, vowelRom_injective.eq_iff]
  rw [matchParity]
  by_cases hp : a = cslo cs ∧ c = cshi cs
  · rw [if_neg (not_not.mpr (hmatch.mpr hp)), if_pos hp]
    exact hrest
  · rw [if_pos (mt hmatch.mp hp), if_neg hp]
    simp [bind, Except.bind]

/-- A check that passes hands its answer to what follows. -/
theorem bind_eq_ok {α : Type} {x : Except DecodeError α} {f : α → Except DecodeError β} {b : β}
    (h : (x >>= f) = .ok b) : ∃ a, x = .ok a ∧ f a = .ok b := by
  cases x with
  | error e => cases h
  | ok a => exact ⟨a, rfl, h⟩

end

/-! ### A window -/

/-- What the encoder writes for two bytes is read back (43_decoder.md R101 phase 4). -/
theorem readWindow_window (l r : Byte) (cs : Fin 36) :
    readWindow (vowelRom (tripleA l cs)) (dataConsRom (tripleB l)) (vowelRom (tripleC l cs))
      (dataConsRom (pairD r)) sepChar (dataConsRom (pairE r)) cs = .ok (l, r) := by
  simp [readWindow, bind, Except.bind, pure, Except.pure]

/-- The chain of checks of a window and its reading agree on the error (43_decoder.md R113). -/
theorem windowError_eq_some_iff {w0 w1 w2 w3 w4 w5 : Byte} {cs : Fin 36} {e : DecodeError} :
    Codec.windowError w0 w1 w2 w3 w4 w5 cs = some e ↔
      readWindow w0 w1 w2 w3 w4 w5 cs = .error e := by
  refine needVowel_bind_error_iff fun a ha => ?_
  refine needDataCons_bind_error_iff fun b _ => ?_
  refine needVowel_bind_error_iff fun c hc => ?_
  subst ha hc
  refine untriple_bind_error_iff fun v => ?_
  refine needDataCons_bind_error_iff fun d _ => ?_
  refine needSep_bind_error_iff ?_
  refine needDataCons_bind_error_iff fun f _ => ?_
  exact iff_of_false nofun nofun

/-! ### The final group -/

/-- The parity tuple the encoder writes is read as the end (43_decoder.md R114). -/
theorem readFinal_parity (cs : Fin 36) :
    readFinal (vowelRom (cslo cs)) sentinelChar (vowelRom (cshi cs)) cs = .ok none := by
  simp [readFinal, matchParity, bind, Except.bind, pure, Except.pure]

/-- The final triple the encoder writes is read back (43_decoder.md R115). -/
theorem readFinal_triple (v : Byte) (cs : Fin 36) :
    readFinal (vowelRom (tripleA v cs)) (dataConsRom (tripleB v)) (vowelRom (tripleC v cs)) cs =
      .ok (some v) := by
  simp [readFinal, bind, Except.bind, pure, Except.pure]

/-- A final group without an error has the sentinel in its middle and gives no byte, or is the
triple of the byte it gives (43_decoder.md R114, R115). -/
theorem readFinal_ok {t0 t1 t2 : Byte} {cs : Fin 36} {o : Option Byte}
    (h : readFinal t0 t1 t2 cs = .ok o) :
    (t1 = sentinelChar ∧ o = none) ∨
      ∃ v, o = some v ∧ t1 ≠ sentinelChar ∧ tripleChars v cs = [t0, t1, t2] := by
  obtain ⟨a, ha, h⟩ := bind_eq_ok h
  split_ifs at h with hs
  · obtain ⟨c, -, h⟩ := bind_eq_ok h
    obtain ⟨-, -, h⟩ := bind_eq_ok h
    cases h
    exact Or.inl ⟨charClass_eq_sentinel hs, rfl⟩
  · obtain ⟨b, hb, h⟩ := bind_eq_ok h
    obtain ⟨c, hc, h⟩ := bind_eq_ok h
    obtain ⟨v, hv, h⟩ := bind_eq_ok h
    cases h
    obtain rfl := needVowel_ok.mp ha
    obtain rfl := needDataCons_ok.mp hb
    obtain rfl := needVowel_ok.mp hc
    obtain ⟨rfl, rfl, rfl⟩ := untriple_ok.mp hv
    exact Or.inr ⟨v, rfl, fun hx => hs (hx ▸ charClass_sentinelChar), rfl⟩

/-- The chain of checks of a final group and its reading agree on the error (43_decoder.md R117). -/
theorem finalError_eq_some_iff {t0 t1 t2 : Byte} {cs : Fin 36} {e : DecodeError} :
    Codec.finalError t0 t1 t2 cs = some e ↔ readFinal t0 t1 t2 cs = .error e := by
  refine needVowel_bind_error_iff fun a ha => ?_
  by_cases hs : charClass t1 = .sentinel
  · rw [if_pos hs, if_pos hs]
    refine needVowel_bind_error_iff fun c hc => ?_
    obtain rfl := charClass_eq_sentinel hs
    subst ha hc
    exact matchParity_bind_error_iff (iff_of_false nofun nofun)
  · rw [if_neg hs, if_neg hs]
    refine needDataCons_bind_error_iff_of_ne hs fun b _ => ?_
    refine needVowel_bind_error_iff fun c hc => ?_
    subst ha hc
    exact untriple_bind_error_iff fun v => iff_of_false nofun nofun

end Sys2Proof.Machine

/-! PROOFS. The list decoder on what the list encoder writes (43_decoder.md R106, R116, R121): good
windows are read one by one, and decoding undoes encoding. -/

namespace Sys2Proof.Machine

/-! ### The characters the encoder writes are in the alphabet -/

@[simp] theorem inAlpha_vowelRom (i : Fin 6) : inAlpha (vowelRom i) = true := by
  simp [inAlpha_iff]

@[simp] theorem inAlpha_dataConsRom (i : Fin 16) : inAlpha (dataConsRom i) = true := by
  simp [inAlpha_iff]

@[simp] theorem inAlpha_sentinelChar : inAlpha sentinelChar = true := by simp [inAlpha_iff]

@[simp] theorem inAlpha_sepChar : inAlpha sepChar = true := by simp [inAlpha_iff]

theorem inAlpha_tripleChars (v : Byte) (cs : Fin 36) :
    ∀ ch ∈ tripleChars v cs, inAlpha ch = true := by
  simp [tripleChars]

theorem inAlpha_parityChars (cs : Fin 36) : ∀ ch ∈ parityChars cs, inAlpha ch = true := by
  simp [parityChars]

theorem inAlpha_windowChars (l r : Byte) (cs : Fin 36) :
    ∀ ch ∈ Codec.windowChars l r cs, inAlpha ch = true := by
  simp [Codec.windowChars, tripleChars, pairChars]

theorem inAlpha_windows (bs : List Byte) (cs : Fin 36) :
    ∀ ch ∈ Codec.windows bs cs, inAlpha ch = true := by
  induction bs, cs using Codec.windows.induct with
  | case1 l r rest cs ih => exact List.forall_mem_append.mpr ⟨inAlpha_windowChars l r cs, ih⟩
  | case2 => nofun
  | case3 => nofun

theorem inAlpha_encodeFrom (bs : List Byte) (cs : Fin 36) :
    ∀ ch ∈ Codec.encodeFrom bs cs, inAlpha ch = true := by
  induction bs, cs using Codec.encodeFrom.induct with
  | case1 l r rest cs ih => exact List.forall_mem_append.mpr ⟨inAlpha_windowChars l r cs, ih⟩
  | case2 v cs => exact inAlpha_tripleChars v cs
  | case3 cs => exact inAlpha_parityChars cs

theorem firstInvalid_eq_none {i : Nat} {chs : List Byte} (h : ∀ ch ∈ chs, inAlpha ch = true) :
    Codec.firstInvalid i chs = none := by
  induction chs generalizing i with
  | nil => rfl
  | cons ch chs ih =>
    obtain ⟨hch, hchs⟩ := List.forall_mem_cons.mp h
    rw [Codec.firstInvalid, if_pos hch, ih hchs]

/-! ### Reading an interior -/

/-- A window that passes its checks gives two bytes (43_decoder.md R106). -/
theorem decodeFrom_window_of_ok {w0 w1 w2 w3 w4 w5 b0 b1 : Byte} {cs : Fin 36}
    (h : readWindow w0 w1 w2 w3 w4 w5 cs = .ok (b0, b1)) (rest : List Byte) :
    Codec.decodeFrom (w0 :: w1 :: w2 :: w3 :: w4 :: w5 :: rest) cs =
      ([b0, b1] ++ ·) <$> Codec.decodeFrom rest (csnext cs b0 b1) := by
  rw [Codec.decodeFrom, h]
  dsimp only
  cases Codec.decodeFrom rest (csnext cs b0 b1) <;> rfl

/-- A failing window ends the reading (43_decoder.md R113). -/
theorem decodeFrom_window_of_error {w0 w1 w2 w3 w4 w5 : Byte} {cs : Fin 36} {e : DecodeError}
    (h : readWindow w0 w1 w2 w3 w4 w5 cs = .error e) (rest : List Byte) :
    Codec.decodeFrom (w0 :: w1 :: w2 :: w3 :: w4 :: w5 :: rest) cs = .error e := by
  rw [Codec.decodeFrom, h]

/-- A remainder of three characters is the final group (43_decoder.md R114, R115). -/
theorem decodeFrom_final (t0 t1 t2 : Byte) (cs : Fin 36) :
    Codec.decodeFrom [t0, t1, t2] cs = Option.toList <$> readFinal t0 t1 t2 cs := by
  rw [Codec.decodeFrom]
  obtain e | (_ | v) := readFinal t0 t1 t2 cs <;> rfl

/-- Any other remainder of fewer than six characters is `Corrupted` (43_decoder.md R116). -/
theorem decodeFrom_of_length {chs : List Byte} (hlt : chs.length < 6) (hne : chs.length ≠ 3)
    (cs : Fin 36) : Codec.decodeFrom chs cs = .error .corrupted := by
  match chs, hlt, hne with
  | [], _, _ => rfl
  | [_], _, _ => rfl
  | [_, _], _, _ => rfl
  | [_, _, _, _], _, _ => rfl
  | [_, _, _, _, _], _, _ => rfl

/-! ### Reading what the encoder writes -/

theorem decodeFrom_windowChars_append (l r : Byte) (cs : Fin 36) (rest : List Byte) :
    Codec.decodeFrom (Codec.windowChars l r cs ++ rest) cs =
      ([l, r] ++ ·) <$> Codec.decodeFrom rest (csnext cs l r) :=
  decodeFrom_window_of_ok (readWindow_window l r cs) rest

/-- The windows of an even byte sequence are read back, and the reading goes on behind them under
the checksum they leave. -/
theorem decodeFrom_windows_append {bs : List Byte} (heven : bs.length % 2 = 0) (cs : Fin 36)
    (rest : List Byte) :
    Codec.decodeFrom (Codec.windows bs cs ++ rest) cs =
      (bs ++ ·) <$> Codec.decodeFrom rest (Codec.csOf bs cs) := by
  induction bs, cs using Codec.windows.induct with
  | case1 l r bs cs ih =>
    have hbs : bs.length % 2 = 0 := by simpa [Nat.add_assoc] using heven
    rw [Codec.windows, List.append_assoc, decodeFrom_windowChars_append, ih hbs, Functor.map_map]
    rfl
  | case2 => cases heven
  | case3 cs => exact (id_map _).symm

/-- "decode(encode(b)) == b" on interiors (43_decoder.md R121). -/
theorem decodeFrom_encodeFrom (bs : List Byte) (cs : Fin 36) :
    Codec.decodeFrom (Codec.encodeFrom bs cs) cs = .ok bs := by
  induction bs, cs using Codec.encodeFrom.induct with
  | case1 l r bs cs ih =>
    rw [Codec.encodeFrom, decodeFrom_windowChars_append, ih]
    rfl
  | case2 v cs =>
    rw [Codec.encodeFrom, tripleChars, decodeFrom_final, readFinal_triple]
    rfl
  | case3 cs =>
    rw [Codec.encodeFrom, parityChars, decodeFrom_final, readFinal_parity]
    rfl

/-! ### Whole strings -/

/-- Between header and trailer, in the alphabet, the interior decides (43_decoder.md R103, R104). -/
theorem decodeString_of_interior {mid : List Byte} (h : ∀ ch ∈ mid, inAlpha ch = true) :
    Codec.decodeString (headerChar :: (mid ++ [trailerChar])) = Codec.decodeFrom mid csInit := by
  have hlast : (headerChar :: (mid ++ [trailerChar])).getLast? = some trailerChar := by
    rw [← List.cons_append, List.getLast?_concat]
  simp [Codec.decodeString, shapeError, firstInvalid_eq_none h, hlast]

/-- "decode(encode(b)) == b" (43_decoder.md R121). -/
theorem decodeString_encodeString (bs : List Byte) :
    Codec.decodeString (Codec.encodeString bs) = .ok bs := by
  rw [Codec.encodeString, decodeString_of_interior (inAlpha_encodeFrom bs csInit),
    decodeFrom_encodeFrom]

end Sys2Proof.Machine

/-! PROOFS. The commands against the functions on lists (42_encoder.md R87, 43_decoder.md R101): OUT
after ENCODE is the encoded string, and DECODE ends with the answer of the list decoder. -/

namespace Sys2Proof.Machine

theorem State.chars_succ_concat (s : State) (i k : Nat) :
    s.chars i (k + 1) = s.chars i k ++ [s.memRead (i + k)] := s.chars_add i k 1

/-! ### The answer of a command -/

/-- The outcome registers and OUT hold this answer (42_encoder.md R94, 43_decoder.md R118,
60_exceptions.md R134). -/
def State.Answers (t : State) : Except DecodeError (List Byte) → Prop
  | .ok bs => t.err = 0 ∧ t.errPos = 0 ∧ t.outLen = bs.length ∧ t.outBuf = Memory.ofBytes 0 bs
  | .error e => t.err = e.code ∧ t.errPos = e.pos ∧ t.outLen = 0

section
variable {t : State} {bs : List Byte}

theorem State.raiseError_answers (s : State) (e : DecodeError) :
    (s.raiseError e).Answers (.error e) := ⟨rfl, rfl, rfl⟩

theorem State.Filled.succeed_answers (h : t.Filled bs) : t.succeed.Answers (.ok bs) :=
  ⟨rfl, rfl, h.op, h.outBuf⟩

theorem State.Answers.outLen (h : t.Answers (.ok bs)) : t.outLen = bs.length := by
  obtain ⟨-, -, hlen, -⟩ := h
  exact hlen

theorem State.Answers.output (h : t.Answers (.ok bs)) : t.output = bs.map some := by
  obtain ⟨-, -, hlen, hbuf⟩ := h
  exact State.output_ofBytes hbuf hlen

theorem State.Answers.outAt (h : t.Answers (.ok bs)) (j : Nat) : t.outAt j = bs[j]? := by
  obtain ⟨-, -, -, hbuf⟩ := h
  rw [State.outAt, hbuf, ← Memory.read?_ofBytes 0 bs j, Nat.zero_add]

end

/-! ### ENCODE -/

theorem State.Filled.encodeGroup {t : State} {out : List Byte} (h : t.Filled out) (l r : Byte) :
    (t.encodeGroup l r).Filled (out ++ Codec.windowChars l r t.cs) := by
  rw [Codec.windowChars, ← List.append_assoc]
  exact ((h.emitAll (tripleChars l t.cs)).emitAll (pairChars r)).congr rfl rfl

/-- With fewer than two bytes left the final group is what the list encoder ends with. -/
theorem State.Filled.encodeFinal {t : State} {out : List Byte} (h : t.Filled out)
    (hlt : t.inLen - t.ip < 2) :
    t.encodeFinal.Filled (out ++ Codec.encodeFrom (t.chars t.ip (t.inLen - t.ip)) t.cs) := by
  rw [State.encodeFinal]
  split_ifs with hone
  · rw [hone]
    exact (h.emitAll (tripleChars (t.memRead t.ip) t.cs)).congr rfl rfl
  · rw [show t.inLen - t.ip = 0 by omega]
    exact h.emitAll (parityChars t.cs)

/-- Groups and final group fill OUT with what the list encoder gives for the bytes left. -/
theorem State.Filled.encodeGroups {t : State} {out : List Byte} (h : t.Filled out) {k : Nat}
    (hk : t.inLen - t.ip < 2 * k + 2) :
    (State.encodeGroups k t).encodeFinal.Filled
      (out ++ Codec.encodeFrom (t.chars t.ip (t.inLen - t.ip)) t.cs) := by
  induction k generalizing t out with
  | zero => exact h.encodeFinal hk
  | succ k ih =>
    rw [State.encodeGroups]
    split_ifs with hmore
    · obtain ⟨m, hm⟩ := Nat.exists_eq_add_of_le' hmore
      have hframe := t.encodeGroup_bodyFrame (t.memRead t.ip) (t.memRead (t.ip + 1))
      have hfill := ih (h.encodeGroup (t.memRead t.ip) (t.memRead (t.ip + 1)))
        (by rw [hframe.inLen, State.encodeGroup_ip]; omega)
      rw [hframe.inLen, State.encodeGroup_ip, State.encodeGroup_cs,
        State.chars_congr hframe.inBuf hframe.epoch, show t.inLen - (t.ip + 2) = m by omega,
        List.append_assoc] at hfill
      rw [hm]
      exact hfill
    · exact h.encodeFinal (by omega)

/-- ENCODE answers the encoded string, the empty literal included (42_encoder.md R86, R87). -/
theorem encodeBody_start_answers (s : State) :
    (encodeBody s.start).Answers (.ok (Codec.encodeString s.input)) := by
  by_cases hn : s.inLen = 0
  · rw [encodeBody_start_of_empty hn, State.input, hn]
    exact (s.start_filled.emitAll emptyLiteral).succeed_answers
  · rw [encodeBody_start_of_nonempty hn]
    have hhead : (s.start.emit headerChar).initCs.Filled [headerChar] :=
      (s.start_filled.emit headerChar).congr rfl rfl
    have hin : (s.start.emit headerChar).initCs.chars 0 s.inLen = s.input :=
      State.chars_congr (s := s) (t := (s.start.emit headerChar).initCs) rfl rfl 0 s.inLen
    have hgroups := hhead.encodeGroups (k := s.inLen / 2) (show s.inLen - 0 < _ by omega)
    exact ((hin ▸ hgroups).emit trailerChar).succeed_answers

/-! ### The interior -/

/-- How the command ends once the window loop has (43_decoder.md R101 phases 4 and 5). -/
def State.endWindows : Except (DecodeError × State) State → State
  | .ok t => t.decodeFinal
  | .error (e, t) => t.raiseError e

theorem State.decodeInterior_eq (s : State) :
    s.decodeInterior =
      State.endWindows (State.decodeWindows ((s.inLen - 2) / 6) s.initCs) := rfl

/-- The interior characters not yet consumed. -/
def State.unread (t : State) : List Byte := t.chars (1 + t.ip) (t.inLen - 2 - t.ip)

@[simp] theorem State.unread_length (t : State) : t.unread.length = t.inLen - 2 - t.ip :=
  State.chars_length _ _ _

@[simp] theorem State.acceptWindow_inLen (t : State) (b0 b1 : Byte) :
    (t.acceptWindow b0 b1).inLen = t.inLen := rfl

@[simp] theorem State.acceptWindow_ip (t : State) (b0 b1 : Byte) :
    (t.acceptWindow b0 b1).ip = t.ip + 6 := rfl

@[simp] theorem State.acceptWindow_cs (t : State) (b0 b1 : Byte) :
    (t.acceptWindow b0 b1).cs = csnext t.cs b0 b1 := rfl

theorem State.Filled.acceptWindow {t : State} {out : List Byte} (h : t.Filled out) (b0 b1 : Byte) :
    (t.acceptWindow b0 b1).Filled (out ++ [b0, b1]) := (h.emitAll [b0, b1]).congr rfl rfl

/-- The six characters of the next window, and what is left behind them. -/
theorem State.unread_eq_window (t : State) (h : 6 ≤ t.inLen - 2 - t.ip) (b0 b1 : Byte) :
    t.unread = t.memRead (1 + t.ip) :: t.memRead (1 + t.ip + 1) :: t.memRead (1 + t.ip + 2) ::
      t.memRead (1 + t.ip + 3) :: t.memRead (1 + t.ip + 4) :: t.memRead (1 + t.ip + 5) ::
      (t.acceptWindow b0 b1).unread := by
  have hleft : (t.acceptWindow b0 b1).unread = t.chars (1 + t.ip + 6) (t.inLen - 2 - (t.ip + 6)) :=
    State.chars_congr (s := t) (t := t.acceptWindow b0 b1) rfl rfl _ _
  obtain ⟨m, hm⟩ := Nat.exists_eq_add_of_le' h
  rw [hleft, State.unread, hm, show t.inLen - 2 - (t.ip + 6) = m by omega]
  rfl

/-- The final group as the list decoder reads it (43_decoder.md R101 phase 5). -/
theorem State.Filled.decodeFinal_answers {t : State} {out : List Byte} (h : t.Filled out)
    (hlt : t.inLen - 2 - t.ip < 6) :
    t.decodeFinal.Answers ((out ++ ·) <$> Codec.decodeFrom t.unread t.cs) := by
  rw [State.decodeFinal]
  split_ifs with hthree
  · have hunread : t.unread =
        [t.memRead (1 + t.ip), t.memRead (2 + t.ip), t.memRead (3 + t.ip)] := by
      rw [State.unread, hthree, show 2 + t.ip = 1 + t.ip + 1 by omega,
        show 3 + t.ip = 1 + t.ip + 1 + 1 by omega]
      rfl
    rw [hunread, decodeFrom_final]
    cases readFinal (t.memRead (1 + t.ip)) (t.memRead (2 + t.ip)) (t.memRead (3 + t.ip)) t.cs with
    | error e => exact t.raiseError_answers e
    | ok o =>
      cases o with
      | none =>
        have hend : (t.advance 3).Filled (out ++ []) := by
          rw [List.append_nil]
          exact h.congr rfl rfl
        exact hend.succeed_answers
      | some v => exact State.Filled.succeed_answers ((h.emit v).congr rfl rfl)
  · rw [decodeFrom_of_length (by simpa using hlt) (by simpa using hthree)]
    exact t.raiseError_answers .corrupted

/-- From any point on, with rounds enough, the window loop and the final group end with what the
list decoder answers for the characters left. -/
theorem State.Filled.decodeWindows_answers {t : State} {out : List Byte} (h : t.Filled out)
    {k : Nat} (hk : t.inLen - 2 - t.ip < 6 * k + 6) :
    (State.endWindows (State.decodeWindows k t)).Answers
      ((out ++ ·) <$> Codec.decodeFrom t.unread t.cs) := by
  induction k generalizing t out with
  | zero => exact h.decodeFinal_answers hk
  | succ k ih =>
    rw [State.decodeWindows]
    split_ifs with hmore
    · cases hw : t.windowAt (1 + t.ip) with
      | error e =>
        rw [t.unread_eq_window hmore 0 0, decodeFrom_window_of_error hw]
        exact t.raiseError_answers e
      | ok b =>
        obtain ⟨b0, b1⟩ := b
        rw [t.unread_eq_window hmore b0 b1, decodeFrom_window_of_ok hw, Functor.map_map]
        have hrest := ih (h.acceptWindow b0 b1) (by simp; omega)
        simpa only [List.append_assoc, State.acceptWindow_cs] using hrest
    · exact h.decodeFinal_answers (by omega)

/-- Phases 4 and 5 on a whole interior. -/
theorem State.decodeInterior_start_answers (s : State) :
    s.start.decodeInterior.Answers
      (Codec.decodeFrom (s.start.chars 1 (s.start.inLen - 2)) csInit) := by
  have hfill : s.start.initCs.Filled [] := s.start_filled.congr rfl rfl
  have hrest := hfill.decodeWindows_answers (k := (s.start.inLen - 2) / 6)
    (show s.start.inLen - 2 - 0 < _ by omega)
  have hunread : s.start.initCs.unread = s.start.chars 1 (s.start.inLen - 2) :=
    s.start.initCs_chars 1 _
  rw [hunread] at hrest
  rw [State.decodeInterior_eq]
  simpa using hrest

/-! ### The phases before it -/

theorem State.hasHeader_eq (s : State) : s.hasHeader = (s.input.head? == some headerChar) := by
  rw [State.hasHeader, State.input]
  cases s.inLen with
  | zero => rfl
  | succ n => simp [State.chars, ← beq_eq_decide]

theorem State.hasTrailer_eq (s : State) :
    s.hasTrailer = (s.input.getLast? == some trailerChar) := by
  rw [State.hasTrailer, State.input]
  cases s.inLen with
  | zero => rfl
  | succ n => simp [s.chars_succ_concat, ← beq_eq_decide]

/-- The characters between the first and the last (43_decoder.md R104). -/
theorem State.input_interior (s : State) : (s.input.drop 1).dropLast = s.chars 1 (s.inLen - 2) := by
  rw [State.input]
  match s.inLen with
  | 0 => rfl
  | 1 => rfl
  | n + 2 =>
    have hlast : (s.chars 0 (n + 2)).drop 1 = s.chars 1 n ++ [s.memRead (1 + n)] :=
      s.chars_succ_concat 1 n
    rw [hlast, List.dropLast_concat, Nat.add_sub_cancel]

@[simp] theorem State.start_input (s : State) : s.start.input = s.input := s.start_chars 0 s.inLen

theorem State.isEmptyLiteral_iff {s : State} :
    s.isEmptyLiteral = true ↔ s.input = emptyLiteral := by
  rw [State.isEmptyLiteral, decide_eq_true_iff]
  constructor
  · rintro ⟨hn, hchars⟩
    rw [State.input, hn, hchars]
  · intro h
    have hn : s.inLen = 5 := by
      rw [← s.input_length, h]
      rfl
    exact ⟨hn, by rw [← h, State.input, hn]⟩

/-- `xexax` passes phases 2 and 3, and its interior holds no byte (43_decoder.md R102). -/
theorem State.emptyLiteral_passes {s : State} (h : s.isEmptyLiteral = true) :
    shapeError s.hasHeader s.hasTrailer s.inLen = none ∧
      s.scanAlphabet 1 (s.inLen - 2) = none ∧
      Codec.decodeFrom (s.chars 1 (s.inLen - 2)) csInit = .ok [] := by
  rw [s.hasHeader_eq, s.hasTrailer_eq, s.scanAlphabet_eq, ← s.input_interior, ← s.input_length,
    State.isEmptyLiteral_iff.mp h]
  exact ⟨by decide, by decide, rfl⟩

theorem decodeBody_of_emptyLiteral {s : State} (h : s.isEmptyLiteral = true) :
    decodeBody s = s.succeed := if_pos h

/-- A string that fails the shape check is no `xexax`, and ends phase 2 (43_decoder.md R103). -/
theorem decodeBody_of_shapeError {s : State} {e : DecodeError}
    (h : shapeError s.hasHeader s.hasTrailer s.inLen = some e) : decodeBody s = s.raiseError e := by
  rw [decodeBody, if_neg (fun hlit => ?_), h]
  obtain ⟨hshape, -, -⟩ := State.emptyLiteral_passes hlit
  cases h.symm.trans hshape

/-- A string with a character outside the alphabet is no `xexax`, and ends phase 3
(43_decoder.md R104). -/
theorem decodeBody_of_scan {s : State} {p : Nat}
    (hshape : shapeError s.hasHeader s.hasTrailer s.inLen = none)
    (h : s.scanAlphabet 1 (s.inLen - 2) = some p) :
    decodeBody s = s.raiseError (.invalidByte p) := by
  rw [decodeBody, if_neg (fun hlit => ?_), hshape, h]
  obtain ⟨-, hscan, -⟩ := State.emptyLiteral_passes hlit
  cases h.symm.trans hscan

/-- DECODE ends with the answer of the list decoder, phase by phase (43_decoder.md R101, R102). -/
theorem decodeBody_start_answers (s : State) :
    (decodeBody s.start).Answers (Codec.decodeString s.input) := by
  rw [← s.start_input, Codec.decodeString, ← s.start.hasHeader_eq, ← s.start.hasTrailer_eq,
    s.start.input_length, s.start.input_interior, ← s.start.scanAlphabet_eq]
  cases hshape : shapeError s.start.hasHeader s.start.hasTrailer s.start.inLen with
  | some e =>
    rw [decodeBody_of_shapeError hshape]
    exact s.start.raiseError_answers e
  | none =>
    cases hscan : s.start.scanAlphabet 1 (s.start.inLen - 2) with
    | some p =>
      rw [decodeBody_of_scan hshape hscan]
      exact s.start.raiseError_answers (.invalidByte p)
    | none =>
      by_cases hlit : s.start.isEmptyLiteral = true
      · obtain ⟨-, -, hnothing⟩ := State.emptyLiteral_passes hlit
        rw [decodeBody_of_emptyLiteral hlit]
        dsimp only
        rw [hnothing]
        exact s.start_filled.succeed_answers
      · rw [decodeBody, if_neg hlit, hshape, hscan]
        exact s.decodeInterior_start_answers

/-- DECODE from a ready state, as the list decoder answers. -/
theorem execDecode_answers {s : State} (h : s.Ready) :
    ∃ t, exec .decode s = .next t ∧ t.Answers (Codec.decodeString s.input) :=
  ⟨_, runCommand_ready h decodeBody, decodeBody_start_answers s⟩

end Sys2Proof.Machine

/-! PROOFS. What DECODE answers (43_decoder.md R102 to R121): from the answer of the list decoder,
and from the two phases before the interior, which leave `CS` unwritten. -/

namespace Sys2Proof.Machine

/-! ### decode(encode(b)) = b -/

/-- A state whose IN holds what ENCODE wrote has the encoded string as its input. -/
theorem input_eq_encodeString {s t u : State} (h : exec .encode s = .next t)
    (hlen : u.inLen = t.outLen) (hbytes : ∀ j, j < t.outLen → t.outAt j = some (u.memRead j)) :
    u.input = Codec.encodeString s.input := by
  obtain ⟨-, rfl⟩ := runCommand_next h
  have hans := encodeBody_start_answers s
  refine State.input_eq (hlen.trans hans.outLen) fun j hj => ?_
  rw [← hans.outAt, hbytes j (hans.outLen ▸ hj)]

/-- Settles O39: the list decoder undoes the list encoder, window by window, and each command
answers as its list function does. -/
theorem decodeOfEncodeIsTheInput : Obligations.DecodeOfEncodeIsTheInput := by
  unfold Obligations.DecodeOfEncodeIsTheInput
  intro s t u henc hu hlen hbytes
  obtain ⟨v, hv, hans⟩ := execDecode_answers hu
  rw [input_eq_encodeString henc hlen hbytes, decodeString_encodeString] at hans
  have hout := hans.outAt
  obtain ⟨herr, hpos, hcount, -⟩ := hans
  refine ⟨v, hv, herr, hpos, hcount.trans s.input_length, fun i hi => ?_⟩
  rw [hout, s.input_getElem? hi]

/-! ### The phases before the interior -/

theorem shapeError_true_of_no_trailer {trl : Bool} {n : Nat} (h : trl = false ∨ n < 2) :
    shapeError true trl n = some .malformedTrailer := by
  obtain rfl | hn := h
  · rfl
  · simp [shapeError, Nat.not_le.mpr hn]

/-- What a failing shape check leaves in the registers (43_decoder.md R103). -/
theorem decodeBody_registers_of_shapeError {s : State} {e : DecodeError}
    (h : shapeError s.hasHeader s.hasTrailer s.inLen = some e) :
    (decodeBody s).err = e.code ∧ (decodeBody s).errPos = 0 ∧ (decodeBody s).outLen = 0 ∧
      (decodeBody s).cs = s.cs := by
  obtain ⟨-, hpos⟩ := shapeError_unplaced h
  rw [decodeBody_of_shapeError h]
  exact ⟨rfl, hpos, rfl, rfl⟩

/-- Settles O30: the three rows of R103, and `raise` leaves `CS`. -/
theorem decodeReportsShapeErrors : Obligations.DecodeReportsShapeErrors := by
  unfold Obligations.DecodeReportsShapeErrors
  intro s hs
  refine ⟨_, runCommand_ready hs decodeBody, fun hhdr htrl => ?_, fun hhdr htrl => ?_,
    fun hhdr htrl => ?_⟩
  · have hyes : s.start.hasHeader = true := decide_eq_true hhdr
    have hno : s.start.hasTrailer = false ∨ s.start.inLen < 2 :=
      htrl.imp_left fun hne => decide_eq_false fun ⟨_, hx⟩ => hne hx
    exact decodeBody_registers_of_shapeError (hyes ▸ shapeError_true_of_no_trailer hno)
  · have hno : s.start.hasHeader = false := decide_eq_false hhdr
    have hyes : s.start.hasTrailer = true := decide_eq_true htrl
    exact decodeBody_registers_of_shapeError (e := .malformedHeader) (by rw [hno, hyes]; rfl)
  · have hno : s.start.hasHeader = false := decide_eq_false hhdr
    have hno' : s.start.hasTrailer = false := decide_eq_false htrl
    exact decodeBody_registers_of_shapeError (e := .corrupted) (by rw [hno, hno']; rfl)

/-- The scan finds the first index of its range whose character is outside the alphabet. -/
theorem State.scanAlphabet_eq_some {s : State} {i k p : Nat} (hle : i ≤ p) (hlt : p < i + k)
    (hbad : inAlpha (s.memRead p) = false)
    (hgood : ∀ j, i ≤ j → j < p → inAlpha (s.memRead j) = true) : s.scanAlphabet i k = some p := by
  induction k generalizing i with
  | zero => omega
  | succ k ih =>
    rw [State.scanAlphabet]
    obtain rfl | hne := eq_or_ne i p
    · simp [hbad]
    · rw [if_pos (hgood i le_rfl (by omega))]
      exact ih (by omega) (by omega) fun j hj => hgood j (by omega)

/-- Settles O31: the shape check passes and the scan stops at `i`. -/
theorem decodeReportsTheFirstInvalidByte : Obligations.DecodeReportsTheFirstInvalidByte := by
  unfold Obligations.DecodeReportsTheFirstInvalidByte
  intro s i hs hn hfirst hlast hi hile hbad hgood
  have hone : 1 ≤ s.inLen := by omega
  have hshape : shapeError s.start.hasHeader s.start.hasTrailer s.start.inLen = none :=
    shapeError_eq_none.mpr ⟨decide_eq_true ⟨hone, hfirst⟩, decide_eq_true ⟨hone, hlast⟩, hn⟩
  have hscan : s.start.scanAlphabet 1 (s.start.inLen - 2) = some i :=
    State.scanAlphabet_eq_some hi (by rw [State.start_inLen]; omega) hbad hgood
  refine ⟨_, runCommand_ready hs decodeBody, ?_⟩
  rw [decodeBody_of_scan hshape hscan]
  exact ⟨rfl, rfl, rfl, rfl⟩

/-- Settles O29: phase 1 writes no byte and leaves `CS`, and `xexax` encodes the empty sequence. -/
theorem decodeOfXexaxIsEmpty : Obligations.DecodeOfXexaxIsEmpty := by
  unfold Obligations.DecodeOfXexaxIsEmpty
  intro s hs hin
  constructor
  · refine ⟨_, runCommand_ready hs decodeBody, ?_⟩
    rw [decodeBody_of_emptyLiteral (State.isEmptyLiteral_iff.mpr (s.start_input.trans hin))]
    exact ⟨rfl, rfl, rfl, rfl⟩
  · rw [hin]
    exact decodeString_encodeString []

/-! ### Behind good windows -/

/-- On good windows and further characters of the alphabet DECODE answers the bytes of the windows
and then what the further characters give (43_decoder.md R106). -/
theorem execDecode_windows {s : State} {bs rest : List Byte} (hs : s.Ready)
    (heven : bs.length % 2 = 0) (halpha : ∀ ch ∈ rest, inAlpha ch = true)
    (hin : s.input = headerChar :: (Codec.windows bs csInit ++ rest ++ [trailerChar])) :
    ∃ t, exec .decode s = .next t ∧
      t.Answers ((bs ++ ·) <$> Codec.decodeFrom rest (Codec.csOf bs csInit)) := by
  obtain ⟨t, ht, hans⟩ := execDecode_answers hs
  have hinterior := List.forall_mem_append.mpr ⟨inAlpha_windows bs csInit, halpha⟩
  rw [hin, decodeString_of_interior hinterior, decodeFrom_windows_append heven] at hans
  exact ⟨t, ht, hans⟩

/-- Settles O33: the reading gets through the good windows, and ends at the bad one. -/
theorem decodeStopsAtTheFirstBadWindow : Obligations.DecodeStopsAtTheFirstBadWindow := by
  unfold Obligations.DecodeStopsAtTheFirstBadWindow
  intro s bs rest w0 w1 w2 w3 w4 w5 e hs heven hin halpha hwin
  have hread := windowError_eq_some_iff.mp hwin
  rw [List.append_assoc (Codec.windows bs csInit)] at hin
  obtain ⟨t, ht, hans⟩ := execDecode_windows hs heven halpha hin
  have hbad : Codec.decodeFrom ([w0, w1, w2, w3, w4, w5] ++ rest) (Codec.csOf bs csInit) =
      .error e := decodeFrom_window_of_error hread rest
  rw [hbad] at hans
  obtain ⟨herr, hpos, hlen⟩ := hans
  obtain ⟨-, hzero⟩ := readWindow_failsUnplaced _ _ _ _ _ _ _ e hread
  exact ⟨t, ht, herr, hpos.trans hzero, hlen⟩

/-- Settles O34: the reading gets through the good windows, and the final group is read as the chain
of its checks says. -/
theorem decodeFinalGroupDecidesTheOutcome : Obligations.DecodeFinalGroupDecidesTheOutcome := by
  unfold Obligations.DecodeFinalGroupDecidesTheOutcome
  intro s bs tail hs heven hlt hin halpha
  obtain ⟨t, ht, hans⟩ := execDecode_windows hs heven halpha hin
  refine ⟨t, ht, fun hne => ?_, ?_⟩
  · rw [decodeFrom_of_length hlt hne] at hans
    exact hans
  rintro t0 t1 t2 rfl
  rw [decodeFrom_final] at hans
  cases hread : readFinal t0 t1 t2 (Codec.csOf bs csInit) with
  | error e =>
    have herror := finalError_eq_some_iff.mpr hread
    rw [hread] at hans
    obtain ⟨herr, hpos, hlen⟩ := hans
    obtain ⟨-, hzero⟩ := readFinal_failsUnplaced t0 t1 t2 _ e hread
    refine ⟨fun e' he' => ?_, fun hnone => ?_⟩
    · cases herror.symm.trans he'
      exact ⟨herr, hpos.trans hzero, hlen⟩
    · cases herror.symm.trans hnone
  | ok o =>
    rw [hread] at hans
    have houtput := State.Answers.output hans
    obtain ⟨herr, hpos, -⟩ := hans
    refine ⟨fun e he => ?_, fun _ => ⟨herr, hpos, fun hx => ?_, fun hx => ?_⟩⟩
    · cases hread.symm.trans (finalError_eq_some_iff.mp he)
    · obtain ⟨-, rfl⟩ | ⟨v, -, hne, -⟩ := readFinal_ok hread
      · simpa using houtput
      · exact absurd hx hne
    · obtain ⟨heq, -⟩ | ⟨v, rfl, -, hv⟩ := readFinal_ok hread
      · exact absurd heq hx
      · exact ⟨v, hv, houtput⟩

end Sys2Proof.Machine

/-! PROOFS. How a step ends and what it keeps (10_state.md R18, R25, R26): one case analysis for the
host's accesses and one for the two commands, from which the invariant and the frames follow. -/

namespace Sys2Proof.Machine

/-! ### The registers after an error -/

theorem DecodeError.code_ne_zero (e : DecodeError) : e.code ≠ 0 := by
  cases e <;> simp [DecodeError.code]

/-- Only `InvalidByte` has a payload (60_exceptions.md R131, R134). -/
theorem DecodeError.code_eq_four {e : DecodeError} (h : e.pos ≠ 0) : e.code = 4 := by
  cases e with
  | invalidByte pos => rfl
  | _ => exact absurd rfl h

/-! ### OUT and the frame -/

theorem State.outAt_of_outBuf_eq {t : State} {bs : List Byte}
    (h : t.outBuf = Memory.ofBytes 0 bs) (j : Nat) : t.outAt j = bs[j]? := by
  rw [State.outAt, h, ← Memory.read?_ofBytes 0 bs j, Nat.zero_add]

theorem CommandFrame.toBodyFrame {s t : State} (h : CommandFrame s t) : BodyFrame s t :=
  ⟨h.params, h.inBuf, h.inLen, h.epoch, h.host, h.seen⟩

theorem CommandFrame.memRead {s t : State} (h : CommandFrame s t) (i : Nat) :
    t.memRead i = s.memRead i := h.toBodyFrame.memRead i

/-! ### How a command ends -/

/-- A state inside a command started in `s`: the frame, OUT filled up to the output cursor, the
input cursor within the input, and the output cursor within the longest output for this input. -/
structure InCommand (s u : State) : Prop where
  frame : BodyFrame s u
  filled : ∃ out, u.Filled out
  ip_le : u.ip ≤ s.inLen
  op_le : u.op ≤ 6 * (s.inLen / 2) + 5

/-- The two ends of a command started in `s`: success, or `raise` of an error whose position is an
index of the input, or 0. -/
inductive CommandEnds (s : State) : State → Prop
  | success {u : State} (h : InCommand s u) : CommandEnds s u.succeed
  | error {u : State} {e : DecodeError} (h : InCommand s u) (hpos : e.pos ≤ s.inLen - 1) :
    CommandEnds s (u.raiseError e)

/-- The input cursor after the final group: a data triple takes one byte more. -/
theorem State.encodeFinal_ip_le {t : State} (h : t.ip ≤ t.inLen) : t.encodeFinal.ip ≤ t.inLen := by
  rw [State.encodeFinal]
  split_ifs with hone
  · simp only [State.advance_ip, State.emitTriple, State.emitAll_ip]
    omega
  · simpa only [State.emitParity, State.emitAll_ip] using h

/-- ENCODE ends with success, its cursors within the input and its output. -/
theorem encodeBody_start_ends (s : State) : CommandEnds s (encodeBody s.start) := by
  by_cases hn : s.inLen = 0
  · rw [encodeBody_start_of_empty hn]
    exact .success ⟨by constructor <;> simp, ⟨_, s.start_filled.emitAll emptyLiteral⟩, by simp,
      by simp [emptyLiteral]⟩
  · have hat := encodesAt_encodeGroups s
    have hframe := hat.frame.trans (State.encodeFinal_bodyFrame _)
    have hhead : (s.start.emit headerChar).initCs.Filled [headerChar] :=
      (s.start_filled.emit headerChar).congr rfl rfl
    have hfill := hhead.encodeGroups (k := s.inLen / 2) (show s.inLen - 0 < _ by omega)
    have hip := State.encodeFinal_ip_le
      (show (State.encodeGroups (s.inLen / 2) (s.start.emit headerChar).initCs).ip ≤ _ by
        rw [hat.ip, hat.frame.inLen]
        omega)
    rw [hat.frame.inLen] at hip
    rw [encodeBody_start_of_nonempty hn]
    refine .success ⟨hframe.trans ⟨rfl, rfl, rfl, rfl, rfl, rfl⟩, ⟨_, hfill.emit trailerChar⟩,
      hip, ?_⟩
    rw [State.emit_op, State.encodeFinal_op, hat.op]

/-- A state inside DECODE: it writes at most one byte for a character it has consumed. -/
structure InDecode (s u : State) : Prop where
  frame : BodyFrame s u
  filled : ∃ out, u.Filled out
  ip_le : u.ip ≤ s.inLen
  op_le : u.op ≤ u.ip

namespace InDecode

variable {s u : State}

theorem inCommand (h : InDecode s u) : InCommand s u where
  frame := h.frame
  filled := h.filled
  ip_le := h.ip_le
  op_le := by
    have hop := h.op_le
    have hip := h.ip_le
    omega

theorem start (s : State) : InDecode s s.start :=
  ⟨⟨rfl, rfl, rfl, rfl, rfl, rfl⟩, ⟨[], s.start_filled⟩, Nat.zero_le _, le_rfl⟩

theorem initCs (h : InDecode s u) : InDecode s u.initCs := by
  obtain ⟨hframe, ⟨out, hfill⟩, hip, hop⟩ := h
  exact ⟨hframe.trans ⟨rfl, rfl, rfl, rfl, rfl, rfl⟩, ⟨out, hfill.congr rfl rfl⟩, hip, hop⟩

theorem acceptWindow (h : InDecode s u) (hmore : 6 ≤ u.inLen - 2 - u.ip) (b0 b1 : Byte) :
    InDecode s (u.acceptWindow b0 b1) := by
  obtain ⟨hframe, ⟨out, hfill⟩, hip, hop⟩ := h
  have hlen := hframe.inLen
  refine ⟨hframe.trans (u.acceptWindow_bodyFrame b0 b1), ⟨_, hfill.acceptWindow b0 b1⟩, ?_, ?_⟩
  · rw [State.acceptWindow_ip]
    omega
  · show u.op + 1 + 1 ≤ u.ip + 6
    omega

/-- An error that is not `InvalidByte` leaves `ERRPOS` 0. -/
theorem raiseError_ends (h : InDecode s u) {e : DecodeError} (he : e.Unplaced) :
    CommandEnds s (u.raiseError e) := by
  obtain ⟨-, hpos⟩ := he
  exact .error h.inCommand (by rw [hpos]; exact Nat.zero_le _)

theorem decodeFinal_ends (h : InDecode s u) : CommandEnds s u.decodeFinal := by
  have hstart := h
  rw [State.decodeFinal]
  split_ifs with hthree
  · obtain ⟨hframe, ⟨out, hfill⟩, -, hop⟩ := h
    have hip : u.ip + 3 ≤ s.inLen := by
      rw [← hframe.inLen]
      omega
    split
    · have hend : InDecode s (u.advance 3) := ⟨hframe.trans ⟨rfl, rfl, rfl, rfl, rfl, rfl⟩,
        ⟨out, hfill.congr rfl rfl⟩, hip, Nat.le_add_right_of_le hop⟩
      exact .success hend.inCommand
    · rename_i v _
      have hend : InDecode s ((u.emit v).advance 3) := ⟨hframe.trans ⟨rfl, rfl, rfl, rfl, rfl, rfl⟩,
        ⟨_, (hfill.emit v).congr rfl rfl⟩, hip, show u.op + 1 ≤ u.ip + 3 by omega⟩
      exact .success hend.inCommand
    · exact hstart.raiseError_ends (readFinal_failsUnplaced _ _ _ _ _ ‹_›)
  · exact h.raiseError_ends DecodeError.unplaced_corrupted

/-- From any point on the window loop and the final group end the command. -/
theorem endWindows_ends (h : InDecode s u) (k : Nat) :
    CommandEnds s (State.endWindows (State.decodeWindows k u)) := by
  induction k generalizing u with
  | zero => exact h.decodeFinal_ends
  | succ k ih =>
    rw [State.decodeWindows]
    split_ifs with hmore
    · cases hw : u.windowAt (1 + u.ip) with
      | error e => exact h.raiseError_ends (readWindow_failsUnplaced _ _ _ _ _ _ _ e hw)
      | ok b => exact ih (h.acceptWindow hmore b.1 b.2)
    · exact h.decodeFinal_ends

end InDecode

/-- DECODE ends with success or an error, in whichever phase. -/
theorem decodeBody_start_ends (s : State) : CommandEnds s (decodeBody s.start) := by
  have h := InDecode.start s
  rw [decodeBody]
  split_ifs
  · exact .success h.inCommand
  · split
    · exact h.raiseError_ends (shapeError_unplaced ‹_›)
    · split
      · rename_i p hscan
        obtain ⟨hle, hlt, -⟩ := State.scanAlphabet_some hscan
        exact .error h.inCommand (show p ≤ s.inLen - 1 by rw [State.start_inLen] at hlt; omega)
      · exact h.initCs.endWindows_ends _

/-- Everything a command can do: it ends in one of the two ways. -/
theorem exec_ends {i : Instr} {s t : State} (h : exec i s = .next t) : CommandEnds s t := by
  cases i with
  | encode =>
    obtain ⟨-, rfl⟩ := runCommand_next h
    exact encodeBody_start_ends s
  | decode =>
    obtain ⟨-, rfl⟩ := runCommand_next h
    exact decodeBody_start_ends s

/-! ### What either end leaves -/

namespace CommandEnds

variable {s t : State}

theorem frame (h : CommandEnds s t) : CommandFrame s t := by
  cases h with
  | success hu => exact BodyFrame.toCommandFrame (hu.frame.trans ⟨rfl, rfl, rfl, rfl, rfl, rfl⟩) rfl
  | error hu _ => exact BodyFrame.toCommandFrame (hu.frame.trans ⟨rfl, rfl, rfl, rfl, rfl, rfl⟩) rfl

/-- OUT holds the result bytes and nothing else. -/
theorem outBuf_eq (h : CommandEnds s t) :
    ∃ out, t.outBuf = Memory.ofBytes 0 out ∧ t.outLen = out.length := by
  cases h with
  | success hu =>
    obtain ⟨out, hfill⟩ := hu.filled
    exact ⟨out, hfill.outBuf, hfill.op⟩
  | error hu _ => exact ⟨[], rfl, rfl⟩

theorem outAt_isSome_iff (h : CommandEnds s t) (j : Nat) :
    (t.outAt j).isSome = true ↔ j < t.outLen := by
  obtain ⟨out, hbuf, hlen⟩ := h.outBuf_eq
  rw [State.outAt_of_outBuf_eq hbuf, hlen, isSome_getElem?]

theorem outAt_eq_none (h : CommandEnds s t) {j : Nat} (hj : t.outLen ≤ j) : t.outAt j = none :=
  Option.not_isSome_iff_eq_none.mp (mt (h.outAt_isSome_iff j).mp (by omega))

theorem outLen_le (h : CommandEnds s t) : t.outLen ≤ 6 * (s.inLen / 2) + 5 := by
  cases h with
  | success hu => exact hu.op_le
  | error _ _ => exact Nat.zero_le _

theorem outLen_of_err (h : CommandEnds s t) (herr : t.err ≠ 0) : t.outLen = 0 := by
  cases h with
  | success _ => exact absurd rfl herr
  | error _ _ => rfl

theorem err_of_errPos (h : CommandEnds s t) (hpos : t.errPos ≠ 0) : t.err = 4 := by
  cases h with
  | success _ => exact absurd rfl hpos
  | error _ _ => exact DecodeError.code_eq_four hpos

theorem errPos_le (h : CommandEnds s t) : t.errPos ≤ s.inLen - 1 := by
  cases h with
  | success _ => exact Nat.zero_le _
  | error _ hle => exact hle

theorem op_eq_of_err (h : CommandEnds s t) (herr : t.err = 0) : t.op = t.outLen := by
  cases h with
  | success _ => rfl
  | @error _ e _ _ => exact absurd herr e.code_ne_zero

theorem cursors_le (h : CommandEnds s t) :
    t.ip ≤ s.inLen ∧ t.op ≤ 6 * (s.inLen / 2) + 5 := by
  cases h with
  | success hu => exact ⟨hu.ip_le, hu.op_le⟩
  | error hu _ => exact ⟨hu.ip_le, hu.op_le⟩

/-- A command keeps the invariant; the capacities of 00_scope.md R5 bound its output. -/
theorem inv (h : CommandEnds s t) (hs : s.Inv) : t.Inv := by
  obtain ⟨hin, hout⟩ := hs.params_wf
  have hlen := hs.inLen_le
  have houtLen := h.outLen_le
  have herrPos := h.errPos_le
  obtain ⟨hip, hop⟩ := h.cursors_le
  have hf := h.frame
  obtain ⟨out, hbuf, hcount⟩ := h.outBuf_eq
  constructor
  case params_wf => rw [hf.params]; exact hs.params_wf
  case inLen_le => rw [hf.params, hf.inLen]; exact hlen
  case outLen_le => rw [hf.params]; omega
  case err_outLen => exact h.outLen_of_err
  case errPos_err => exact h.err_of_errPos
  case errPos_lt => rw [hf.params]; omega
  case idle => exact hf.phase
  case in_wf => rw [hf.inBuf]; exact hs.in_wf
  case in_below => rw [hf.params, hf.inBuf]; exact hs.in_below
  case out_wf => rw [hbuf]; exact Memory.ofBytes_wf 0 out
  case out_range => rw [hbuf, hcount, Memory.ofBytes_indices, List.range_eq_range']
  case op_eq => exact h.op_eq_of_err
  case ip_le => rw [hf.params]; omega
  case op_le => rw [hf.params]; omega

end CommandEnds

/-! ### What a host access does -/

/-- A host access that answers a next state writes a byte of IN or `IN_LEN`, or adds a reply. -/
theorem hostAccess_next {s t : State} {a : Access} (h : hostAccess s a = .next t) :
    (∃ i b, a = .writeIn i b ∧ i < s.params.inMax ∧ t = { s with inBuf := s.inBuf.write i b }) ∨
      (∃ n, a = .writeInLen n ∧ n ≤ s.params.inMax ∧ t = { s with inLen := n }) ∨
      ∃ r, t = s.reply r := by
  cases a with
  | writeIn i b =>
    simp only [hostAccess] at h
    split_ifs at h with hi
    cases h
    exact Or.inl ⟨i, b, rfl, hi, rfl⟩
  | writeInLen n =>
    simp only [hostAccess] at h
    split_ifs at h with hn
    cases h
    exact Or.inr (Or.inl ⟨n, rfl, hn, rfl⟩)
  | readIn i =>
    simp only [hostAccess] at h
    split_ifs at h
    cases h
    exact Or.inr (Or.inr ⟨_, rfl⟩)
  | readOut j =>
    simp only [hostAccess] at h
    split_ifs at h
    split at h
    · cases h
      exact Or.inr (Or.inr ⟨_, rfl⟩)
    · cases h
  | readInLen => cases h; exact Or.inr (Or.inr ⟨_, rfl⟩)
  | readOutLen => cases h; exact Or.inr (Or.inr ⟨_, rfl⟩)
  | readErr => cases h; exact Or.inr (Or.inr ⟨_, rfl⟩)
  | readErrPos => cases h; exact Or.inr (Or.inr ⟨_, rfl⟩)

/-! ### The invariant -/

/-- The state of 10_state.md R24 meets the invariant in every configuration of this hardware. -/
theorem State.afterReset_inv {params : Params} (hw : params.wf) (epoch : Nat)
    (host : List HostAction) (seen : List HostReply) :
    (State.afterReset params epoch host seen).Inv where
  params_wf := hw
  inLen_le := Nat.zero_le _
  outLen_le := Nat.zero_le _
  err_outLen := fun _ => rfl
  errPos_err := fun h => absurd rfl h
  errPos_lt := Nat.lt_of_lt_of_le (Nat.succ_pos 4) hw.1
  idle := rfl
  in_wf := Memory.nil_wf
  in_below := nofun
  out_wf := Memory.nil_wf
  out_range := rfl
  op_eq := fun _ => rfl
  ip_le := Nat.zero_le _
  op_le := Nat.zero_le _

/-- The invariant says nothing of what stands outside the block. -/
theorem State.Inv.withHost {s : State} (h : s.Inv) (host : List HostAction) :
    State.Inv { s with host := host } := { h with }

theorem State.Inv.hostAccess {s t : State} {a : Access} (hs : s.Inv)
    (h : Machine.hostAccess s a = .next t) : t.Inv := by
  obtain ⟨i, b, -, hi, rfl⟩ | ⟨n, -, hn, rfl⟩ | ⟨r, rfl⟩ := hostAccess_next h
  · exact { hs with
      in_wf := Memory.write_wf hs.in_wf i b
      in_below := Memory.write_below hs.in_below hi b }
  · exact { hs with inLen_le := hn }
  · exact { hs with }

/-- Settles O8: idle, a host access, a command, a reset. -/
theorem everyStepKeepsTheInvariant : Obligations.EveryStepKeepsTheInvariant := by
  unfold Obligations.EveryStepKeepsTheInvariant
  intro s t hs h
  obtain ⟨hw, ⟨-, rfl⟩ | ⟨rest, ⟨a, -, -, ha⟩ | ⟨op, -, -, hc⟩ | ⟨-, rfl⟩⟩⟩ := step_cases h
  · exact hs
  · exact (hs.withHost rest).hostAccess ha
  · exact (exec_ends hc).inv (hs.withHost rest)
  · exact State.afterReset_inv hw _ _ _

/-- Settles O7: the reference configuration meets 00_scope.md R5. -/
theorem resetStateMeetsTheInvariant : Obligations.ResetStateMeetsTheInvariant :=
  State.afterReset_inv (by decide) 0 [] []

/-- Settles O9: `LENW` is the size of `OUT_MAX` in bits, and every register is at most `OUT_MAX`. -/
theorem lengthRegistersFitTheirWidth : Obligations.LengthRegistersFitTheirWidth := by
  unfold Obligations.LengthRegistersFitTheirWidth
  intro s hs
  have hfit : s.params.outMax < 2 ^ s.params.lenW := Nat.lt_size_self _
  obtain ⟨-, hcap⟩ := hs.params_wf
  have hin : s.params.inMax ≤ s.params.outMax := by omega
  exact ⟨⟨hfit, fun _ => Nat.size_le.mpr⟩, (hs.inLen_le.trans hin).trans_lt hfit,
    hs.outLen_le.trans_lt hfit, (hs.errPos_lt.le.trans hin).trans_lt hfit,
    (hs.ip_le.trans hin).trans_lt hfit, hs.op_le.trans_lt hfit⟩

/-! ### The frames -/

/-- Settles O27: ENCODE ends in one of the two ways of a command, with the length of R94. -/
theorem encodeFrame : Obligations.EncodeFrame := by
  unfold Obligations.EncodeFrame
  intro s t h
  have hends := exec_ends h
  have hf := hends.frame
  obtain ⟨-, rfl⟩ := runCommand_next h
  have hlen := encodeBody_start_outLen s
  exact ⟨hf, hf.memRead,
    fun j hj => (hends.outAt_isSome_iff j).mpr (hlen ▸ hj),
    fun j hj => hends.outAt_eq_none (hlen ▸ hj)⟩

/-- Settles O36: either end of a command leaves OUT with a value exactly below `OUT_LEN`. -/
theorem decodeFrame : Obligations.DecodeFrame := by
  unfold Obligations.DecodeFrame
  intro s t h
  have hends := exec_ends h
  have hf := hends.frame
  exact ⟨hf, hf.memRead, fun j => (hends.outAt_isSome_iff j).mpr,
    fun j => hends.outAt_eq_none⟩

/-- Settles O28: the two ends of a command. -/
theorem decodeIsAllOrNothing : Obligations.DecodeIsAllOrNothing := by
  unfold Obligations.DecodeIsAllOrNothing
  intro s hs
  have hrun : exec .decode s = .next (decodeBody s.start) := runCommand_ready hs decodeBody
  have hends := exec_ends hrun
  have hf := hends.frame
  refine ⟨_, hrun, fun _ => hends.outAt_isSome_iff, fun herr => ?_, fun hne => ?_, hf.inBuf,
    hf.inLen⟩
  · have hzero := hends.outLen_of_err herr
    exact ⟨hzero, fun j => hends.outAt_eq_none (hzero ▸ Nat.zero_le j)⟩
  · exact not_not.mp (mt hends.err_of_errPos hne)

/-- Settles O50: idle, a host access, a command, a reset, each with what it writes. -/
theorem eachAgentWritesOnlyItsOwn : Obligations.EachAgentWritesOnlyItsOwn := by
  unfold Obligations.EachAgentWritesOnlyItsOwn
  intro s t h
  obtain ⟨-, ⟨-, rfl⟩ | ⟨rest, ⟨a, hh, -, ha⟩ | ⟨op, hh, -, hc⟩ | ⟨hh, rfl⟩⟩⟩ := step_cases h
  · simp
  · obtain ⟨i, b, rfl, -, rfl⟩ | ⟨n, rfl, -, rfl⟩ | ⟨r, rfl⟩ := hostAccess_next ha
    · exact ⟨rfl, fun _ => ⟨rest, Or.inl ⟨i, b, hh⟩⟩, by simp⟩
    · exact ⟨rfl, fun _ => ⟨rest, Or.inr (Or.inl ⟨n, hh⟩)⟩, by simp⟩
    · simp
  · have hf := (exec_ends hc).frame
    exact ⟨hf.params, by simp [hf.inBuf, hf.inLen], fun _ => ⟨rest, Or.inl ⟨op, hh⟩⟩⟩
  · exact ⟨rfl, fun _ => ⟨rest, Or.inr (Or.inr hh)⟩, fun _ => ⟨rest, Or.inr hh⟩⟩

end Sys2Proof.Machine

/-! PROOFS. The string ENCODE writes and the strings DECODE accepts (30_encoding.md R48 to R54,
43_decoder.md R119, R122, R123): a group of the input and its window stand side by side, and every
accepted string is an encoded one. -/

namespace Sys2Proof.Machine

/-! ### The list encoder behind full groups -/

section
variable {xs : List Byte}

/-- The full groups of an even sequence become windows, and the encoding goes on behind them under
the checksum they leave. -/
theorem encodeFrom_append (heven : xs.length % 2 = 0) (cs : Fin 36) (ys : List Byte) :
    Codec.encodeFrom (xs ++ ys) cs =
      Codec.windows xs cs ++ Codec.encodeFrom ys (Codec.csOf xs cs) := by
  induction xs, cs using Codec.windows.induct with
  | case1 l r xs cs ih =>
    have hxs : xs.length % 2 = 0 := by simpa [Nat.add_assoc] using heven
    simp only [List.cons_append, Codec.encodeFrom, Codec.windows, Codec.csOf, ih hxs,
      List.append_assoc]
  | case2 => cases heven
  | case3 => rfl

theorem csOf_append (heven : xs.length % 2 = 0) (cs : Fin 36) (ys : List Byte) :
    Codec.csOf (xs ++ ys) cs = Codec.csOf ys (Codec.csOf xs cs) := by
  induction xs, cs using Codec.windows.induct with
  | case1 l r xs cs ih => exact ih (by simpa [Nat.add_assoc] using heven)
  | case2 => cases heven
  | case3 => rfl

end

@[simp] theorem windowChars_length (l r : Byte) (cs : Fin 36) :
    (Codec.windowChars l r cs).length = 6 := rfl

theorem windows_length (bs : List Byte) (cs : Fin 36) :
    (Codec.windows bs cs).length = 6 * (bs.length / 2) := by
  induction bs, cs using Codec.windows.induct with
  | case1 l r bs cs ih =>
    simp only [Codec.windows, List.length_append, windowChars_length, List.length_cons, ih]
    omega
  | case2 => simp [Codec.windows]
  | case3 => rfl

theorem encodeFrom_length (bs : List Byte) (cs : Fin 36) :
    (Codec.encodeFrom bs cs).length = 6 * (bs.length / 2) + 3 := by
  induction bs, cs using Codec.encodeFrom.induct with
  | case1 l r bs cs ih =>
    simp only [Codec.encodeFrom, List.length_append, windowChars_length, List.length_cons, ih]
    omega
  | case2 => simp [Codec.encodeFrom, tripleChars]
  | case3 => rfl

theorem encodeString_length (bs : List Byte) :
    (Codec.encodeString bs).length = 6 * (bs.length / 2) + 5 := by
  simp [Codec.encodeString, encodeFrom_length]

/-! ### Where `x` stands -/

theorem vowelRom_ne_sentinelChar (i : Fin 6) : vowelRom i ≠ sentinelChar := vowelRom_ne_consRom i 16

theorem dataConsRom_ne_sentinelChar (i : Fin 16) : dataConsRom i ≠ sentinelChar := fun h => by
  simpa using congrArg charClass h

theorem sentinelChar_notMem_tripleChars (v : Byte) (cs : Fin 36) :
    sentinelChar ∉ tripleChars v cs := by
  simp [tripleChars, (vowelRom_ne_sentinelChar _).symm, (dataConsRom_ne_sentinelChar _).symm]

theorem sentinelChar_notMem_windowChars (l r : Byte) (cs : Fin 36) :
    sentinelChar ∉ Codec.windowChars l r cs := by
  have hsep : sentinelChar ≠ sepChar := consRom_ne_sepChar 16
  simp [Codec.windowChars, pairChars, sentinelChar_notMem_tripleChars, hsep,
    (dataConsRom_ne_sentinelChar _).symm]

/-- Behind the header `x` stands in the middle of a parity tuple only (42_encoder.md R96 (e)). -/
theorem encodeFrom_getElem?_eq_sentinelChar_iff (bs : List Byte) (cs : Fin 36) (k : Nat) :
    (Codec.encodeFrom bs cs)[k]? = some sentinelChar ↔
      bs.length % 2 = 0 ∧ k = 6 * (bs.length / 2) + 1 := by
  induction bs, cs using Codec.encodeFrom.induct generalizing k with
  | case1 l r bs cs ih =>
    rw [Codec.encodeFrom, List.length_cons, List.length_cons]
    by_cases hk : k < 6
    · rw [List.getElem?_append_left (by simpa using hk)]
      refine iff_of_false (fun h => ?_) (by omega)
      exact sentinelChar_notMem_windowChars l r cs (List.mem_of_getElem? h)
    · rw [List.getElem?_append_right (by simpa using hk), windowChars_length, ih]
      omega
  | case2 v cs =>
    exact iff_of_false (fun h => sentinelChar_notMem_tripleChars v cs (List.mem_of_getElem? h))
      (by simp)
  | case3 cs =>
    match k with
    | 0 => simp [Codec.encodeFrom, parityChars, vowelRom_ne_sentinelChar]
    | 1 => simp [Codec.encodeFrom, parityChars]
    | 2 => simp [Codec.encodeFrom, parityChars, vowelRom_ne_sentinelChar]
    | k + 3 => simp [Codec.encodeFrom, parityChars]

/-! ### Every string the list decoder accepts is an encoded one -/

/-- A window without an error is the window of the bytes it gives (43_decoder.md R113). -/
theorem readWindow_ok {w0 w1 w2 w3 w4 w5 b0 b1 : Byte} {cs : Fin 36}
    (h : readWindow w0 w1 w2 w3 w4 w5 cs = .ok (b0, b1)) :
    Codec.windowChars b0 b1 cs = [w0, w1, w2, w3, w4, w5] := by
  obtain ⟨a, ha, h⟩ := bind_eq_ok h
  obtain ⟨b, hb, h⟩ := bind_eq_ok h
  obtain ⟨c, hc, h⟩ := bind_eq_ok h
  obtain ⟨v, hv, h⟩ := bind_eq_ok h
  obtain ⟨d, hd, h⟩ := bind_eq_ok h
  obtain ⟨⟨⟩, hsep, h⟩ := bind_eq_ok h
  obtain ⟨e, he, h⟩ := bind_eq_ok h
  cases h
  obtain rfl := needVowel_ok.mp ha
  obtain rfl := needDataCons_ok.mp hb
  obtain rfl := needVowel_ok.mp hc
  obtain ⟨rfl, rfl, rfl⟩ := untriple_ok.mp hv
  obtain rfl := needDataCons_ok.mp hd
  obtain rfl := needSep_ok.mp hsep
  obtain rfl := needDataCons_ok.mp he
  simp [Codec.windowChars, tripleChars, pairChars]

/-- A final group that gives no byte is the parity tuple (43_decoder.md R114). -/
theorem readFinal_ok_none {t0 t1 t2 : Byte} {cs : Fin 36}
    (h : readFinal t0 t1 t2 cs = .ok none) : parityChars cs = [t0, t1, t2] := by
  obtain ⟨a, ha, h⟩ := bind_eq_ok h
  split_ifs at h with hs
  · obtain ⟨c, hc, h⟩ := bind_eq_ok h
    obtain ⟨⟨⟩, hm, -⟩ := bind_eq_ok h
    obtain rfl := needVowel_ok.mp ha
    obtain rfl := needVowel_ok.mp hc
    obtain rfl := charClass_eq_sentinel hs
    obtain ⟨rfl, rfl⟩ := matchParity_ok.mp hm
    rfl
  · obtain ⟨b, -, h⟩ := bind_eq_ok h
    obtain ⟨c, -, h⟩ := bind_eq_ok h
    obtain ⟨v, -, h⟩ := bind_eq_ok h
    cases h

/-- A final group that gives a byte is that byte's triple (43_decoder.md R115). -/
theorem readFinal_ok_some {t0 t1 t2 v : Byte} {cs : Fin 36}
    (h : readFinal t0 t1 t2 cs = .ok (some v)) : tripleChars v cs = [t0, t1, t2] := by
  obtain ⟨-, hnone⟩ | ⟨w, hw, -, htriple⟩ := readFinal_ok h
  · cases hnone
  · cases hw
    exact htriple

/-- "One spelling per byte sequence" on interiors (43_decoder.md R122). -/
theorem encodeFrom_of_decodeFrom {chs bs : List Byte} {cs : Fin 36}
    (h : Codec.decodeFrom chs cs = .ok bs) : Codec.encodeFrom bs cs = chs := by
  induction chs, cs using Codec.decodeFrom.induct generalizing bs with
  | case1 w0 w1 w2 w3 w4 w5 rest cs e hw =>
    rw [decodeFrom_window_of_error hw] at h
    cases h
  | case2 w0 w1 w2 w3 w4 w5 rest cs b0 b1 hw e hrest =>
    rw [decodeFrom_window_of_ok hw, hrest] at h
    cases h
  | case3 w0 w1 w2 w3 w4 w5 rest cs b0 b1 hw bs' hrest ih =>
    rw [decodeFrom_window_of_ok hw, hrest] at h
    cases h
    show Codec.windowChars b0 b1 cs ++ Codec.encodeFrom bs' (csnext cs b0 b1) = _
    rw [readWindow_ok hw, ih hrest]
    rfl
  | case4 t0 t1 t2 cs e hf =>
    rw [decodeFrom_final, hf] at h
    cases h
  | case5 t0 t1 t2 cs hf =>
    rw [decodeFrom_final, hf] at h
    cases h
    exact readFinal_ok_none hf
  | case6 t0 t1 t2 cs v hf =>
    rw [decodeFrom_final, hf] at h
    cases h
    exact readFinal_ok_some hf
  | case7 chs cs hwindow hfinal =>
    rw [Codec.decodeFrom.eq_3 _ _ hwindow hfinal] at h
    cases h

/-- "One spelling per byte sequence" (43_decoder.md R122), with R121. -/
theorem decodeString_eq_ok_iff {str bs : List Byte} :
    Codec.decodeString str = .ok bs ↔ str = Codec.encodeString bs := by
  refine ⟨fun h => ?_, fun h => h ▸ decodeString_encodeString bs⟩
  rw [Codec.decodeString] at h
  split at h
  · cases h
  · rename_i hshape
    split at h
    · cases h
    · obtain ⟨hhead, hlast, hlen⟩ := shapeError_eq_none.mp hshape
      have hmid := encodeFrom_of_decodeFrom h
      match str, hlen with
      | x :: y :: rest, _ =>
        obtain rfl : x = headerChar := by simpa using hhead
        have htail : (y :: rest).getLast? = some trailerChar := by simpa using hlast
        rw [Codec.encodeString, hmid]
        exact congrArg _ (List.dropLast_append_getLast? _ htail).symm


/-! ### The commands on lists -/

/-- ENCODE from a ready state, as the list encoder answers. -/
theorem execEncode_answers {s : State} (h : s.Ready) :
    ∃ t, exec .encode s = .next t ∧ t.Answers (.ok (Codec.encodeString s.input)) :=
  ⟨_, runCommand_ready h encodeBody, encodeBody_start_answers s⟩

/-- A string DECODE accepts is the encoded string of the bytes it writes. -/
theorem execDecode_err_zero {s t : State} (h : exec .decode s = .next t) (herr : t.err = 0) :
    ∃ bs, s.input = Codec.encodeString bs ∧ t.Answers (.ok bs) := by
  obtain ⟨-, rfl⟩ := runCommand_next h
  have hans := decodeBody_start_answers s
  cases hstr : Codec.decodeString s.input with
  | error e =>
    rw [hstr] at hans
    obtain ⟨hcode, -⟩ := hans
    exact absurd (hcode.symm.trans herr) e.code_ne_zero
  | ok bs => exact ⟨bs, decodeString_eq_ok_iff.mp hstr, hstr ▸ hans⟩

/-- A state whose IN holds the result bytes of another has them as its input. -/
theorem State.Answers.input_eq {t u : State} {bs : List Byte} (h : t.Answers (.ok bs))
    (hlen : u.inLen = t.outLen) (hbytes : ∀ j, j < t.outLen → t.outAt j = some (u.memRead j)) :
    u.input = bs := by
  refine State.input_eq (hlen.trans h.outLen) fun j hj => ?_
  rw [← h.outAt, hbytes j (h.outLen ▸ hj)]

/-- Settles O40: the accepted string is the encoded string of the bytes DECODE wrote. -/
theorem encodeOfDecodeIsTheString : Obligations.EncodeOfDecodeIsTheString := by
  unfold Obligations.EncodeOfDecodeIsTheString
  intro s t u hdec herr hu hlen hbytes
  obtain ⟨bs, hin, hans⟩ := execDecode_err_zero hdec herr
  obtain ⟨v, hv, hvans⟩ := execEncode_answers hu
  rw [hans.input_eq hlen hbytes, ← hin] at hvans
  exact ⟨v, hv, hvans.outLen.trans s.input_length,
    fun i hi => (hvans.outAt i).trans (s.input_getElem? hi)⟩

/-- Settles O25: the answer of the list encoder. -/
theorem encodeRefinesTheListEncoder : Obligations.EncodeRefinesTheListEncoder := by
  unfold Obligations.EncodeRefinesTheListEncoder
  intro s hs
  obtain ⟨t, ht, hans⟩ := execEncode_answers hs
  have hout := hans.output
  obtain ⟨herr, hpos, hlen, -⟩ := hans
  exact ⟨t, ht, herr, hpos, hlen, hout⟩

/-- Settles O35: the answer of the list decoder, bytes or error. -/
theorem decodeRefinesTheListDecoder : Obligations.DecodeRefinesTheListDecoder := by
  unfold Obligations.DecodeRefinesTheListDecoder
  intro s hs
  obtain ⟨t, ht, hans⟩ := execDecode_answers hs
  refine ⟨t, ht, fun bs hbs => ?_, fun e he => ?_⟩
  · rw [hbs] at hans
    have hout := hans.output
    obtain ⟨herr, hpos, hlen, -⟩ := hans
    exact ⟨herr, hpos, hlen, hout⟩
  · rw [he] at hans
    exact hans

/-- Settles O42: a command leaves the input, and the outcome depends on that alone. -/
theorem commandsRepeatIdentically : Obligations.CommandsRepeatIdentically := by
  unfold Obligations.CommandsRepeatIdentically
  intro i i' s t u hst htu
  have hsu := (exec_ends hst).frame.toBodyFrame.trans (exec_ends htu).frame.toBodyFrame
  have hs := exec_next_ready hst
  have hu : u.Ready := by
    rw [State.Ready, hsu.params, hsu.inLen]
    exact hs
  obtain ⟨t', v, ht', hv, hobs⟩ := outcomeDependsOnTheInputAlone i s u hs hu hsu.inLen.symm
    fun k _ => (hsu.memRead k).symm
  cases hst.symm.trans ht'
  exact ⟨v, hv, hobs.symm⟩

/-! ### The groups of the input and the windows of the output -/

theorem csOf_chars (s : State) (j : Nat) :
    Codec.csOf (s.chars 0 (2 * j)) csInit = s.csAfter j := by
  induction j with
  | zero => rfl
  | succ j ih =>
    rw [Nat.mul_succ, State.chars_add, csOf_append (by simp), ih, Nat.zero_add]
    rfl

/-- What stands in OUT from window `j` on: what the list encoder gives for the bytes from group `j`
on, and the trailer (30_encoding.md R48, R50). -/
theorem encodeBody_start_outAt {s : State} {i j k : Nat} (hj : 2 * j ≤ s.inLen)
    (hi : i = 1 + 6 * j + k) :
    (encodeBody s.start).outAt i =
      (Codec.encodeFrom (s.chars (2 * j) (s.inLen - 2 * j)) (s.csAfter j) ++
        [trailerChar])[k]? := by
  have hsplit : s.input = s.chars 0 (2 * j) ++ s.chars (2 * j) (s.inLen - 2 * j) := by
    have hadd := s.chars_add 0 (2 * j) (s.inLen - 2 * j)
    rwa [Nat.add_sub_cancel' hj, Nat.zero_add] at hadd
  have hlen : (Codec.windows (s.chars 0 (2 * j)) csInit).length = 6 * j := by
    simp [windows_length]
  rw [(encodeBody_start_answers s).outAt, hsplit, Codec.encodeString, encodeFrom_append (by simp),
    csOf_chars, List.append_assoc, hi, Nat.add_assoc, Nat.add_comm 1, List.getElem?_cons_succ,
    List.getElem?_append_right (by omega), hlen, Nat.add_sub_cancel_left]

/-- Settles O23: group `j` is encoded as its window. -/
theorem encodeWritesEveryWindow : Obligations.EncodeWritesEveryWindow := by
  unfold Obligations.EncodeWritesEveryWindow
  intro s hs
  refine ⟨_, runCommand_ready hs encodeBody, fun j hj => ?_⟩
  obtain ⟨m, hm⟩ := Nat.exists_eq_add_of_le' (show 2 ≤ s.inLen - 2 * j by omega)
  have hout {i : Nat} (k : Nat) (hi : i = 1 + 6 * j + k) :=
    encodeBody_start_outAt (s := s) (by omega) hi
  rw [hm] at hout
  exact ⟨tripleA (s.memRead (2 * j)) (s.csAfter j), tripleC (s.memRead (2 * j)) (s.csAfter j),
    tripleB (s.memRead (2 * j)), pairD (s.memRead (2 * j + 1)), pairE (s.memRead (2 * j + 1)),
    tripleA_val _ _, tripleB_val _, tripleC_val _ _, pairD_val _, pairE_val _,
    hout 0 rfl, hout 1 (by omega), hout 2 (by omega), hout 3 (by omega), hout 4 (by omega),
    hout 5 (by omega)⟩

/-- Settles O24: behind the last full group the list encoder ends with a triple or the parity
tuple. -/
theorem encodeWritesHeaderFinalGroupAndTrailer :
    Obligations.EncodeWritesHeaderFinalGroupAndTrailer := by
  unfold Obligations.EncodeWritesHeaderFinalGroupAndTrailer
  intro s hs
  have hhead : (encodeBody s.start).outAt 0 = some headerChar :=
    (encodeBody_start_answers s).outAt 0
  have hout {i : Nat} (k : Nat) (hi : i = 1 + 6 * (s.inLen / 2) + k) :=
    encodeBody_start_outAt (s := s) (by omega) hi
  refine ⟨_, runCommand_ready hs encodeBody, (encodeBody_start_outLen s).trans (Nat.add_comm _ _),
    hhead, ?_⟩
  obtain hpar | hpar := Nat.mod_two_eq_zero_or_one s.inLen
  · rw [show s.inLen - 2 * (s.inLen / 2) = 0 by omega] at hout
    exact ⟨hout 3 (by omega), cslo (s.csAfter (s.inLen / 2)), cshi (s.csAfter (s.inLen / 2)), 16,
      hout 0 rfl, hout 1 (by omega), hout 2 (by omega), fun _ => ⟨rfl, rfl, rfl⟩, by omega⟩
  · rw [show s.inLen - 2 * (s.inLen / 2) = 1 by omega,
      show 2 * (s.inLen / 2) = s.inLen - 1 by omega] at hout
    exact ⟨hout 3 (by omega), tripleA (s.memRead (s.inLen - 1)) (s.csAfter (s.inLen / 2)),
      tripleC (s.memRead (s.inLen - 1)) (s.csAfter (s.inLen / 2)),
      (tripleB (s.memRead (s.inLen - 1))).castSucc, hout 0 rfl, hout 1 (by omega),
      hout 2 (by omega), by omega, fun _ => ⟨tripleA_val _ _, tripleB_val _, tripleC_val _ _⟩⟩

/-! ### The characters ENCODE writes -/

theorem inAlpha_encodeString (bs : List Byte) :
    ∀ ch ∈ Codec.encodeString bs, inAlpha ch = true := by
  have hx : inAlpha sentinelChar = true := inAlpha_sentinelChar
  exact List.forall_mem_cons.mpr ⟨hx, List.forall_mem_append.mpr
    ⟨inAlpha_encodeFrom bs csInit, List.forall_mem_singleton.mpr hx⟩⟩

/-- `x` stands first, last, or in the middle of a parity tuple (42_encoder.md R96 (e)). -/
theorem encodeString_getElem?_sentinelChar {bs : List Byte} {j : Nat}
    (h : (Codec.encodeString bs)[j]? = some sentinelChar) :
    j = 0 ∨ j + 1 = (Codec.encodeString bs).length ∨
      (bs.length % 2 = 0 ∧ j + 3 = (Codec.encodeString bs).length) := by
  rw [encodeString_length]
  cases j with
  | zero => exact Or.inl rfl
  | succ k =>
    have hlen := encodeFrom_length bs csInit
    rw [Codec.encodeString, List.getElem?_cons_succ] at h
    by_cases hk : k < (Codec.encodeFrom bs csInit).length
    · rw [List.getElem?_append_left hk] at h
      obtain ⟨heven, rfl⟩ := (encodeFrom_getElem?_eq_sentinelChar_iff bs csInit k).mp h
      exact Or.inr (Or.inr ⟨heven, by omega⟩)
    · have hlt : k < (Codec.encodeFrom bs csInit ++ [trailerChar]).length :=
        (List.getElem?_eq_some_iff.mp h).1
      rw [List.length_append, List.length_singleton] at hlt
      exact Or.inr (Or.inl (by omega))

/-- Settles O26: the characters of the encoded string, and where its `x` stand. -/
theorem encodeOutputStaysInTheAlphabet : Obligations.EncodeOutputStaysInTheAlphabet := by
  unfold Obligations.EncodeOutputStaysInTheAlphabet
  intro s hs
  obtain ⟨t, ht, hans⟩ := execEncode_answers hs
  refine ⟨t, ht, fun j hj => ?_⟩
  rw [hans.outLen] at hj
  have hch := List.getElem?_eq_getElem hj
  refine ⟨_, (hans.outAt j).trans hch, inAlpha_encodeString _ _ (List.getElem_mem hj), fun hx => ?_⟩
  rw [hx] at hch
  have hplace := encodeString_getElem?_sentinelChar hch
  rwa [← hans.outLen, s.input_length] at hplace

/-! ### The strings DECODE accepts -/

theorem State.inLen_of_input_eq_encodeString {s : State} {bs : List Byte}
    (h : s.input = Codec.encodeString bs) : s.inLen = 6 * (bs.length / 2) + 5 := by
  rw [← s.input_length, h, encodeString_length]

/-- The middle of the final group of an encoded string tells the parity of the byte count
(42_encoder.md R96 (e), 43_decoder.md R119). -/
theorem State.memRead_final_middle_iff {s : State} {bs : List Byte}
    (h : s.input = Codec.encodeString bs) :
    s.memRead (s.inLen - 3) = sentinelChar ↔ bs.length % 2 = 0 := by
  have hlen := State.inLen_of_input_eq_encodeString h
  have hindex : s.inLen - 3 = 6 * (bs.length / 2) + 1 + 1 := by omega
  have hget := s.input_getElem? (j := s.inLen - 3) (by omega)
  rw [h, Codec.encodeString, hindex, List.getElem?_cons_succ,
    List.getElem?_append_left (by rw [encodeFrom_length]; omega)] at hget
  rw [hindex, ← Option.some_inj, ← hget, encodeFrom_getElem?_eq_sentinelChar_iff]
  exact and_iff_left rfl

/-- Settles O37: the string is an encoded one, and the middle of its final group tells the parity of
the byte count. -/
theorem decodeOutputLength : Obligations.DecodeOutputLength := by
  unfold Obligations.DecodeOutputLength
  intro s t h herr
  obtain ⟨bs, hin, hans⟩ := execDecode_err_zero h herr
  have hlen := State.inLen_of_input_eq_encodeString hin
  have hmid := State.memRead_final_middle_iff hin
  rw [hans.outLen]
  refine ⟨by omega, fun hx => ?_, fun hx => ?_⟩
  · have heven := hmid.mp hx
    omega
  · have hodd := mt hmid.mpr hx
    omega

/-- Every full group of a sequence splits it. -/
theorem exists_group {bs : List Byte} {j : Nat} (h : j < bs.length / 2) :
    ∃ pre l r post, bs = pre ++ l :: r :: post ∧ pre.length = 2 * j := by
  have hlen : (bs.drop (2 * j)).length = bs.length - 2 * j := List.length_drop
  match hdrop : bs.drop (2 * j) with
  | l :: r :: post =>
    refine ⟨bs.take (2 * j), l, r, post, ?_, by rw [List.length_take]; omega⟩
    rw [← hdrop, List.take_append_drop]
  | [_] =>
    rw [hdrop, List.length_singleton] at hlen
    omega
  | [] =>
    rw [hdrop, List.length_nil] at hlen
    omega

/-- An encoded string with the separator of one window replaced. -/
theorem encodeString_set_separator {pre : List Byte} {j : Nat} (hpre : pre.length = 2 * j)
    (l r ch : Byte) (post : List Byte) :
    (Codec.encodeString (pre ++ l :: r :: post)).set (5 + 6 * j) ch =
      headerChar :: (Codec.windows pre csInit ++
        [vowelRom (tripleA l (Codec.csOf pre csInit)), dataConsRom (tripleB l),
          vowelRom (tripleC l (Codec.csOf pre csInit)), dataConsRom (pairD r), ch,
          dataConsRom (pairE r)] ++
        Codec.encodeFrom post (csnext (Codec.csOf pre csInit) l r) ++ [trailerChar]) := by
  have hlen : (Codec.windows pre csInit).length = 6 * j := by
    rw [windows_length]
    omega
  rw [Codec.encodeString, encodeFrom_append (by omega), Nat.add_comm 5, List.set_cons_succ,
    List.append_assoc, List.set_append_right _ _ (by omega), hlen, Nat.add_sub_cancel_left,
    List.append_assoc, List.append_assoc]
  rfl

/-- The input of a state that differs from another's at one index. -/
theorem State.input_eq_set {s u : State} {i : Nat} (hlen : u.inLen = s.inLen)
    (h : ∀ k, k < s.inLen → k ≠ i → u.memRead k = s.memRead k) :
    u.input = s.input.set i (u.memRead i) := by
  refine State.input_eq (by simpa using hlen) fun k hk => ?_
  rw [List.length_set, State.input_length] at hk
  rw [List.getElem?_set]
  split_ifs with hi hlt
  · rw [hi]
  · exact absurd (hi ▸ hk) (by simpa using hlt)
  · rw [s.input_getElem? hk, h k hk (Ne.symm hi)]

/-- Settles O38: the string is an encoded one, so its windows are good up to the one with the wrong
separator, and the separator is the first check that fails there. -/
theorem tamperedSeparatorIsCorrupted : Obligations.TamperedSeparatorIsCorrupted := by
  unfold Obligations.TamperedSeparatorIsCorrupted
  intro s t u j h herr hj hu hlen hsame hsep halpha
  obtain ⟨bs, hin, -⟩ := execDecode_err_zero h herr
  have hcount := State.inLen_of_input_eq_encodeString hin
  obtain ⟨pre, l, r, post, rfl, hpre⟩ := exists_group (bs := bs) (j := j) (by omega)
  have huin := State.input_eq_set hlen hsame
  rw [hin, encodeString_set_separator hpre] at huin
  refine decodeStopsAtTheFirstBadWindow u pre _ _ _ _ _ _ _ .corrupted hu (by omega) huin
    (List.forall_mem_append.mpr ⟨?_, inAlpha_encodeFrom _ _⟩) (windowError_eq_some_iff.mpr ?_)
  · simp [halpha]
  · have hbad : u.memRead (5 + 6 * j) ≠ sepChar := hsep
    simp [readWindow, needSep, hbad, bind, Except.bind]

end Sys2Proof.Machine

/-! PROOFS. What the host does (10_state.md R25, 70_reset_and_hazards.md R158, R166; 30_encoding.md
R60): one rule per move, the load by induction on the bytes, and the calls of the two commands. -/

namespace Sys2Proof.Machine

/-! ### One rule per move -/

section
variable {s : State} {rest : List HostAction}

/-- A write of `CMD` between commands runs the decoded command. -/
theorem step_writeCmd {op : BitVec 1} (hw : s.params.wf) (hp : s.phase = .idle)
    (hh : s.host = .writeCmd op :: rest) :
    step s = exec (decodeOp op) { s with host := rest } := by
  simp only [step, nextMove, if_pos hw, hh, hostMove, whenIdle, hp]

theorem step_reset (hw : s.params.wf) (hh : s.host = .reset :: rest) :
    step s = .next (State.hostReset { s with host := rest }) := by
  simp only [step, nextMove, if_pos hw, hh, hostMove]

theorem step_of_no_action (hw : s.params.wf) (hh : s.host = []) : step s = .next s := by
  simp only [step, nextMove, if_pos hw, hh]

theorem step_of_not_wf (hw : ¬ s.params.wf) : step s = .refused .badConfiguration := by
  simp only [step, nextMove, if_neg hw]

/-- In the running phase every action but a reset is refused. -/
theorem step_running {a : HostAction} (hw : s.params.wf) (hp : s.phase = .running)
    (hh : s.host = a :: rest) (ha : a ≠ .reset) : step s = .refused .hostWhileRunning := by
  cases a with
  | access a => simp only [step, nextMove, if_pos hw, hh, hostMove, whenIdle, hp]
  | writeCmd op => simp only [step, nextMove, if_pos hw, hh, hostMove, whenIdle, hp]
  | reset => exact absurd rfl ha

end

/-! ### One rule per access between commands -/

section
variable {s : State} {rest : List HostAction} (hw : s.params.wf) (hp : s.phase = .idle)
include hw hp

theorem step_writeIn {i : Nat} {b : Byte} (hh : s.host = .access (.writeIn i b) :: rest)
    (hi : i < s.params.inMax) :
    step s = .next { s with host := rest, inBuf := s.inBuf.write i b } :=
  (step_access hw hp hh).trans (if_pos hi)

theorem step_writeIn_of_le {i : Nat} {b : Byte} (hh : s.host = .access (.writeIn i b) :: rest)
    (hi : s.params.inMax ≤ i) : step s = .fault .noSuchInByte :=
  (step_access hw hp hh).trans (if_neg (Nat.not_lt.mpr hi))

theorem step_writeInLen {n : Nat} (hh : s.host = .access (.writeInLen n) :: rest)
    (hn : n ≤ s.params.inMax) : step s = .next { s with host := rest, inLen := n } :=
  (step_access hw hp hh).trans (if_pos hn)

theorem step_writeInLen_of_lt {n : Nat} (hh : s.host = .access (.writeInLen n) :: rest)
    (hn : s.params.inMax < n) : step s = .refused .inLenAboveCapacity :=
  (step_access hw hp hh).trans (if_neg (Nat.not_le.mpr hn))

theorem step_readIn {i : Nat} (hh : s.host = .access (.readIn i) :: rest)
    (hi : i < s.params.inMax) :
    step s = .next { s with host := rest, seen := s.seen ++ [.inByte i (s.memRead i)] } :=
  (step_access hw hp hh).trans (if_pos hi)

theorem step_readIn_of_le {i : Nat} (hh : s.host = .access (.readIn i) :: rest)
    (hi : s.params.inMax ≤ i) : step s = .fault .noSuchInByte :=
  (step_access hw hp hh).trans (if_neg (Nat.not_lt.mpr hi))

theorem step_readOut {j : Nat} {b : Byte} (hh : s.host = .access (.readOut j) :: rest)
    (hmax : j < s.params.outMax) (hlen : j < s.outLen) (hb : s.outAt j = some b) :
    step s = .next { s with host := rest, seen := s.seen ++ [.outByte j b] } := by
  rw [State.outAt] at hb
  simp only [step_access hw hp hh, hostAccess, if_pos hmax, if_pos hlen, hb, State.reply]

theorem step_readOut_above {j : Nat} (hh : s.host = .access (.readOut j) :: rest)
    (hmax : j < s.params.outMax) (hlen : s.outLen ≤ j) :
    step s = .refused .outReadAboveLength := by
  simp only [step_access hw hp hh, hostAccess, if_pos hmax, if_neg (Nat.not_lt.mpr hlen)]

theorem step_readOut_of_le {j : Nat} (hh : s.host = .access (.readOut j) :: rest)
    (hj : s.params.outMax ≤ j) : step s = .fault .noSuchOutByte :=
  (step_access hw hp hh).trans (if_neg (Nat.not_lt.mpr hj))

end

/-- An index that is listed has a value. -/
theorem Memory.exists_read?_of_mem {m : Memory} {j : Nat} (h : j ∈ m.map Prod.fst) :
    ∃ b, m.read? j = some b := by
  induction m with
  | nil => cases h
  | cons c m ih =>
    obtain ⟨a, b⟩ := c
    rw [Memory.read?]
    split_ifs with ha
    · exact ⟨b, rfl⟩
    · exact ih ((List.mem_cons.mp h).resolve_left (Ne.symm ha))

/-- Between commands every byte of OUT below `OUT_LEN` has a value. -/
theorem State.Inv.exists_outAt {s : State} (h : s.Inv) {j : Nat} (hj : j < s.outLen) :
    ∃ b, s.outAt j = some b :=
  Memory.exists_read?_of_mem (h.out_range ▸ List.mem_range.mpr hj)

/-- Settles O47: one read each. -/
theorem hostReadsGiveTheRegisters : Obligations.HostReadsGiveTheRegisters := by
  unfold Obligations.HostReadsGiveTheRegisters
  intro s a rest hs hh
  have hw := hs.params_wf
  have hp := hs.idle
  refine ⟨?_, ?_, ?_, ?_, ?_, ?_⟩
  · rintro i rfl hi
    exact step_readIn hw hp hh hi
  · rintro rfl
    exact step_access hw hp hh
  · rintro j rfl hj
    obtain ⟨b, hb⟩ := hs.exists_outAt hj
    exact ⟨b, hb, step_readOut hw hp hh (hj.trans_le hs.outLen_le) hj hb⟩
  · rintro rfl
    exact step_access hw hp hh
  · rintro rfl
    exact step_access hw hp hh
  · rintro rfl
    exact step_access hw hp hh

/-- A byte of IN after a host write. -/
theorem State.memRead_writeIn_same (s : State) (i : Nat) (b : Byte) (host : List HostAction) :
    State.memRead { s with host := host, inBuf := s.inBuf.write i b } i = b := by
  simp [State.memRead]

theorem State.memRead_writeIn_other (s : State) {i k : Nat} (h : k ≠ i) (b : Byte)
    (host : List HostAction) :
    State.memRead { s with host := host, inBuf := s.inBuf.write i b } k = s.memRead k := by
  simp [State.memRead, Memory.read?_write_other _ _ h]

/-- Settles O46: the write of one byte. -/
theorem hostWriteChangesOneByteOfIn : Obligations.HostWriteChangesOneByteOfIn := by
  unfold Obligations.HostWriteChangesOneByteOfIn
  intro s i b rest hw hp hh hi
  refine ⟨_, step_writeIn hw hp hh hi,
    s.memRead_writeIn_same i b rest, fun k hk => s.memRead_writeIn_other hk b rest, rfl⟩

/-! ### The load -/

/-- One step of a run. -/
theorem run_succ {s t : State} (k : Nat) (h : step s = .next t) :
    Host.Core.run core (k + 1) s = Host.Core.run core k t := by
  have hstep : core.step s = .next t := h
  simp only [Host.Core.run, hstep]

/-- Loading bytes from index `i` on places them there, keeps the bytes below, and changes nothing
but IN and the host's list. -/
theorem run_loadBytes {s : State} {i : Nat} {bs : List Byte} {rest : List HostAction}
    (hw : s.params.wf) (hp : s.phase = .idle) (hfit : i + bs.length ≤ s.params.inMax)
    (hh : s.host = loadBytes i bs ++ rest) :
    ∃ m, Host.Core.run core bs.length s = .next { s with host := rest, inBuf := m } ∧
      (∀ k, k < i → State.memRead { s with inBuf := m } k = s.memRead k) ∧
      ∀ k, k < bs.length → bs[k]? = some (State.memRead { s with inBuf := m } (i + k)) := by
  induction bs generalizing s i with
  | nil => exact ⟨s.inBuf, by rw [← (show s.host = rest from hh)]; rfl, fun _ _ => rfl, nofun⟩
  | cons b bs ih =>
    rw [List.length_cons] at hfit
    have hstep := step_writeIn hw hp hh (by omega)
    obtain ⟨m, hrun, hbelow, hbytes⟩ := ih (i := i + 1)
      (s := { s with host := loadBytes (i + 1) bs ++ rest, inBuf := s.inBuf.write i b })
      hw hp (show i + 1 + bs.length ≤ s.params.inMax by omega) rfl
    refine ⟨m, (run_succ _ hstep).trans hrun, fun k hk => ?_, fun k hk => ?_⟩
    · exact (hbelow k (by omega)).trans (s.memRead_writeIn_other (by omega) b _)
    · cases k with
      | zero =>
        have hfirst := (hbelow i (by omega)).trans (s.memRead_writeIn_same i b _)
        exact congrArg some hfirst.symm
      | succ k =>
        rw [List.getElem?_cons_succ, hbytes k (Nat.lt_of_succ_lt_succ hk), Nat.add_right_comm,
          Nat.add_assoc]
        rfl

/-- The load of a sequence that fits makes it the input (70_reset_and_hazards.md R158 steps 1 and
2), whatever the host does next, and changes nothing but IN, `IN_LEN` and the host's list. -/
theorem run_load {s : State} {bs : List Byte} {rest : List HostAction} (hs : s.Inv)
    (hfit : bs.length ≤ s.params.inMax)
    (hh : s.host = loadBytes 0 bs ++ .access (.writeInLen bs.length) :: rest) :
    ∃ m, Host.Core.run core (bs.length + 1) s =
        .next { s with host := rest, inLen := bs.length, inBuf := m } ∧
      ∀ host, State.input { s with host := host, inLen := bs.length, inBuf := m } = bs := by
  obtain ⟨m, hrun, -, hbytes⟩ := run_loadBytes hs.params_wf hs.idle (by simpa using hfit) hh
  have hstep := step_writeInLen (s := { s with host := _, inBuf := m }) (rest := rest) hs.params_wf
    hs.idle rfl hfit
  refine ⟨m, (run_add 1 hrun).trans (run_succ 0 hstep), fun host => ?_⟩
  refine State.input_eq rfl fun k hk => ?_
  rw [hbytes k hk, Nat.zero_add]
  rfl

/-- Settles O43: the load, which touches no register that is observed. -/
theorem hostLoadPlacesTheInput : Obligations.HostLoadPlacesTheInput := by
  unfold Obligations.HostLoadPlacesTheInput
  intro s bs rest hs hfit hh
  obtain ⟨m, hrun, hin⟩ := run_load hs hfit hh
  exact ⟨_, hrun, hin rest, rfl, rfl, rfl, rfl⟩

/-! ### The calls -/

theorem decodeOp_encodeOp (i : Instr) : decodeOp (encodeOp i) = i := by cases i <;> rfl

/-- A call of a command (30_encoding.md R60): the load, and then the command from a ready state that
holds the sequence as its input. -/
theorem run_callScript {i : Instr} {s : State} {bs : List Byte} {rest : List HostAction}
    (hs : s.Inv) (hfit : bs.length ≤ s.params.inMax) (hh : s.host = callScript i bs ++ rest) :
    ∃ t : State, t.Ready ∧ t.input = bs ∧ t.host = rest ∧
      ∀ u, exec i t = .next u → Host.Core.run core (bs.length + 2) s = .next u := by
  rw [callScript, List.append_assoc] at hh
  obtain ⟨m, hrun, hin⟩ := run_load hs hfit hh
  have hstep := step_writeCmd (s := { s with host := _, inLen := bs.length, inBuf := m })
    (op := encodeOp i) (rest := rest) hs.params_wf hs.idle rfl
  rw [decodeOp_encodeOp] at hstep
  exact ⟨{ s with host := rest, inLen := bs.length, inBuf := m }, ⟨hs.params_wf, hfit⟩, hin rest,
    rfl, fun u hu => (run_add 1 hrun).trans (run_succ 0 (hstep.trans hu))⟩

/-- Settles O44: the call of ENCODE. -/
theorem encodeCallGivesTheString : Obligations.EncodeCallGivesTheString := by
  unfold Obligations.EncodeCallGivesTheString
  intro s bs rest hs hfit hh
  obtain ⟨t, hready, hin, hhost, hrun⟩ := run_callScript hs hfit hh
  obtain ⟨u, hu, hans⟩ := execEncode_answers hready
  rw [hin] at hans
  have hout := hans.output
  obtain ⟨herr, -⟩ := hans
  exact ⟨u, hrun u hu, (exec_ends hu).frame.host.trans hhost, herr, hout⟩

/-- Settles O45: the call of DECODE. -/
theorem decodeCallGivesTheBytesOrTheError : Obligations.DecodeCallGivesTheBytesOrTheError := by
  unfold Obligations.DecodeCallGivesTheBytesOrTheError
  intro s str rest hs hfit hh
  obtain ⟨t, hready, hin, hhost, hrun⟩ := run_callScript hs hfit hh
  obtain ⟨u, hu, hok, herror⟩ := decodeRefinesTheListDecoder t hready
  rw [hin] at hok herror
  refine ⟨u, hrun u hu, (exec_ends hu).frame.host.trans hhost, fun bs hbs => ?_, herror⟩
  obtain ⟨herr, -, -, hout⟩ := hok bs hbs
  exact ⟨herr, hout⟩

/-! ### Commands by their words -/

/-- Settles O1: the map of R46 on its two values. -/
theorem commandWordsDecodeAsMapped : Obligations.CommandWordsDecodeAsMapped := by
  unfold Obligations.CommandWordsDecodeAsMapped
  decide

theorem encodeOp_decodeOp : ∀ op : BitVec 1, encodeOp (decodeOp op) = op := by decide

theorem decodeInstr_encodeInstr (i : Instr) (rest : List Byte) :
    decodeInstr (encodeInstr i ++ rest) = .ok (i, rest) := by cases i <;> rfl

/-- Settles O2: the byte and the bit of each command. -/
theorem everyCommandDecodesFromItsEncoding : Obligations.EveryCommandDecodesFromItsEncoding :=
  ⟨decodeInstr_encodeInstr, decodeOp_encodeOp, encodeOp_decodeOp⟩

/-- A table word decodes as its bit 0 does (30_encoding.md R46). -/
theorem decodeTableWord_eq (nbits w : Nat) :
    decodeTableWord nbits w = some (decodeOp (BitVec.ofNat 1 w)) := by
  obtain ⟨k, hk⟩ : ∃ k, max 1 (nbits / 8) = k + 1 := ⟨max 1 (nbits / 8) - 1, by omega⟩
  have hbit : (BitVec.ofNat 8 w).extractLsb' 0 1 = BitVec.ofNat 1 w := by
    apply BitVec.eq_of_toNat_eq
    simp
  rw [decodeTableWord, hk, ← hbit]
  rfl

/-- Settles O3: a write of `CMD`, and the same write placed by `withFetchWord`. -/
theorem stepRunsTheCommandWritten : Obligations.StepRunsTheCommandWritten := by
  unfold Obligations.StepRunsTheCommandWritten
  refine ⟨fun s op rest hw hp hh => step_writeCmd hw hp hh, fun s nbits w i hw hi => ?_⟩
  rw [decodeTableWord_eq, Option.some_inj] at hi
  rw [← hi]
  exact step_writeCmd (s := s.withFetchWord nbits w) hw rfl rfl

/-- Settles O4: no pending action. -/
theorem idleBlockHoldsItsRegisters : Obligations.IdleBlockHoldsItsRegisters := fun _ =>
  step_of_no_action

/-! ### Reset -/

/-- Settles O5: the state of 10_state.md R24, at the start of a run and after a reset. -/
theorem resetLeavesTheResetValues : Obligations.ResetLeavesTheResetValues := by
  unfold Obligations.ResetLeavesTheResetValues
  refine ⟨⟨rfl, rfl, rfl, rfl, rfl, rfl, rfl, rfl, fun _ => ⟨rfl, rfl⟩⟩, fun s rest hw hh => ?_⟩
  exact ⟨_, step_reset hw hh, rfl, rfl, rfl, rfl, rfl, rfl, rfl, rfl, fun _ => ⟨rfl, rfl⟩, rfl, rfl,
    rfl, rfl⟩

/-- Settles O6: the input after a reset is empty, for which ENCODE writes the literal and DECODE
finds neither header nor trailer. -/
theorem commandsRunStraightAfterReset : Obligations.CommandsRunStraightAfterReset := by
  unfold Obligations.CommandsRunStraightAfterReset
  intro s hw _
  have hready : s.hostReset.Ready := ⟨hw, Nat.zero_le _⟩
  have hempty : ¬ (1 ≤ s.hostReset.inLen) := by simp
  obtain ⟨t, ht, -, hout, herr, -⟩ := encodeOfEmptyInputWritesXexax s.hostReset hready rfl
  obtain ⟨u, hu, -, -, hcorrupted⟩ := decodeReportsShapeErrors s.hostReset hready
  obtain ⟨huerr, hupos, hulen, -⟩ :=
    hcorrupted (fun h => hempty h.1) (fun h => hempty h.1)
  exact ⟨t, u, ht, hout, herr, hu, huerr, hupos, hulen⟩

/-! ### What stops a run -/

theorem exec_of_not_wf {s : State} (i : Instr) (hw : ¬ s.params.wf) :
    exec i s = .refused .badConfiguration := by
  cases i with
  | encode => exact if_neg hw
  | decode => exact if_neg hw

theorem exec_of_inMax_lt {s : State} (i : Instr) (hw : s.params.wf) (h : s.params.inMax < s.inLen) :
    exec i s = .refused .inLenAboveCapacity := by
  have hgt := Nat.not_le.mpr h
  cases i with
  | encode => exact (if_pos hw).trans (if_neg hgt)
  | decode => exact (if_pos hw).trans (if_neg hgt)

/-- Settles O48: one refusal each. -/
theorem machineConditionsAreRefused : Obligations.MachineConditionsAreRefused := by
  unfold Obligations.MachineConditionsAreRefused
  exact ⟨fun s i hw => ⟨step_of_not_wf hw, exec_of_not_wf i hw⟩, fun s i => exec_of_inMax_lt i,
    fun s n rest hw hp hh hn => step_writeInLen_of_lt hw hp hh hn,
    fun s a rest hw hp hh ha => step_running hw hp hh ha,
    fun s j rest hw hp hh hlen hmax => step_readOut_above hw hp hh hmax hlen⟩

/-- Settles O49: one fault each. -/
theorem indicesThatDoNotExistFault : Obligations.IndicesThatDoNotExistFault := by
  unfold Obligations.IndicesThatDoNotExistFault
  intro s i b rest hw hp
  exact ⟨fun hi =>
    ⟨fun hh => step_writeIn_of_le hw hp hh hi, fun hh => step_readIn_of_le hw hp hh hi⟩,
    fun hi hh => step_readOut_of_le hw hp hh hi⟩

end Sys2Proof.Machine

/-! PROOFS. The ROM bytes, the checksum step as a permutation, and the numeric check
(40_alphabet_roms.md R68, 41_checksum.md R84, 43_decoder.md R108, R109), with what `raise` writes
(60_exceptions.md R134). -/

namespace Sys2Proof.Machine

/-- Settles O10: the two ROMs listed. -/
theorem alphabetRomsHoldTheirCodes : Obligations.AlphabetRomsHoldTheirCodes := by
  unfold Obligations.AlphabetRomsHoldTheirCodes
  decide

/-! ### The checksum step -/

/-- 5 is a unit modulo 36 (41_checksum.md R84 (a)). -/
theorem csnext_injective (b0 b1 : Byte) : Function.Injective fun cs => csnext cs b0 b1 := by
  intro cs cs' h
  have hval : (cs.val * 5 + b0.toNat * 7 + b1.toNat) % 36 =
      (cs'.val * 5 + b0.toNat * 7 + b1.toNat) % 36 := congrArg Fin.val h
  exact Fin.ext (by omega)

/-- The second byte alone reaches every state (41_checksum.md R84 (b)). -/
theorem csnext_reaches (cs cs' : Fin 36) :
    csnext cs 0 (BitVec.ofNat 8 ((cs'.val + 180 - cs.val * 5) % 36)) = cs' := by
  apply Fin.ext
  rw [csnext_val, BitVec.toNat_ofNat, Nat.mod_eq_of_lt (b := 2 ^ 8) (by omega)]
  show (cs.val * 5 + 0 * 7 + _) % 36 = _
  omega

/-- Settles O14: injective on a finite type, and a second byte for every pair of states. -/
theorem checksumStepIsABijection : Obligations.ChecksumStepIsABijection :=
  ⟨fun b0 b1 => Finite.injective_iff_bijective.mp (csnext_injective b0 b1),
    fun cs cs' => ⟨_, _, csnext_reaches cs cs'⟩⟩

/-! ### Triples -/

/-- Settles O18: the reversal of a triple. -/
theorem tripleReversalInvertsEmission : Obligations.TripleReversalInvertsEmission :=
  fun _ _ _ _ _ => untriple_ok

/-- A triple's fields as digits of its byte (30_encoding.md R56). -/
theorem joinTriple_toNat {hi lo : Nat} (hhi : hi < 4) (mid : Fin 16) (hlo : lo < 4) :
    (joinTriple hi mid lo).toNat = hi * 64 + mid.val * 4 + lo := by
  obtain ⟨h76, hB, h10⟩ := bits_joinTriple ⟨hi, hhi⟩ mid ⟨lo, hlo⟩
  have hmid := congrArg Fin.val hB
  rw [bits_seven _ (by decide)] at h76
  rw [tripleB_val] at hmid
  rw [bits_zero] at h10
  simp only at h76 hmid h10
  omega

/-- Every shift of the six vowel indices keeps four of them below 4 (43_decoder.md R109). -/
theorem four_acceptable_vowels : ∀ c : Fin 6,
    ((List.finRange 6).filter fun p => decide ((p.val + 6 - c.val) % 6 < 4)).length = 4 := by
  decide

/-- Settles O19: the two counts, and the two answers of `untriple`. -/
theorem numericCheckAcceptsFourVowels : Obligations.NumericCheckAcceptsFourVowels := by
  unfold Obligations.NumericCheckAcceptsFourVowels
  refine fun cs => ⟨four_acceptable_vowels (cslo cs), four_acceptable_vowels (cshi cs),
    fun p r q => ⟨fun hfail => if_pos hfail, fun hhi hlo => ?_⟩⟩
  have hpass : ¬ (4 ≤ removeLo p cs ∨ 4 ≤ removeHi r cs) :=
    not_or.mpr ⟨Nat.not_le.mpr hhi, Nat.not_le.mpr hlo⟩
  exact ⟨_, if_neg hpass, joinTriple_toNat hhi q hlo⟩

/-! ### Raising an error -/

/-- Settles O20: the outcome registers error by error. -/
theorem raiseWritesTheOutcomeRegisters : Obligations.RaiseWritesTheOutcomeRegisters := by
  unfold Obligations.RaiseWritesTheOutcomeRegisters
  refine fun s e => ⟨rfl, ?_, ⟨rfl, rfl, rfl, rfl, rfl, rfl, rfl⟩, fun _ => rfl, rfl, rfl, rfl⟩
  cases e <;> rfl

end Sys2Proof.Machine
